-- ==== Sys2Proof/Config.lean ====
section
/-! DEFINITION. What an implementation fixes and the spec leaves open: the one open parameter, the capacity of the receive
buffer (00_scope.md R10, D5). The constants the spec itself fixes (R9) stand in Machine/Constants.lean. -/

namespace Sys2Proof

/-- How many bytes the receive buffer holds beyond `MAX_FRAME`. R10 leaves `BUF_CAP` open and demands only
`BUF_CAP >= MAX_FRAME`; as a constant without a body this number stands for every choice, so what is proved of the model
holds for every finite `BUF_CAP >= 65547`. DESIGN CHOICE, log 3 (safe but for the infinite buffer). -/
opaque Config.bufCapExtra : Nat

end Sys2Proof
end

