-- ==== Sys2Proof/Word.lean ====
section
/-! DEFINITION. The block's value types (00_scope.md R13, R14): unsigned words of 8, 16 and 32 bits, and finite byte
sequences, index 0 first (oldest). -/

namespace Sys2Proof

/-- `u8` (R13). -/
abbrev Byte := BitVec 8

/-- `u16` (R13). -/
abbrev U16 := BitVec 16

/-- `u32` (R13). -/
abbrev U32 := BitVec 32

/-- A byte sequence (R14): index 0 is the first (oldest) byte, `++` is concatenation, `List.drop n` is `drop(n, b)`. -/
abbrev Bytes := List Byte

end Sys2Proof
end

