-- ==== Sys2Proof/Machine/Constants.lean ====
section
/-! DEFINITION. The fixed constants of the block, with the spec's names and values (00_scope.md R9, R11, D8, D10), and
`BUF_CAP` (R10). -/

namespace Sys2Proof

/-- First byte of every frame on the wire (R9). -/
def MAGIC0 : Byte := 0x55

/-- Second byte of every frame on the wire (R9). -/
def MAGIC1 : Byte := 0xAA

/-- The one wire-protocol version (R2, R9). -/
def VERSION : Byte := 0x01

/-- The CRC polynomial (R9). -/
def POLY : U16 := 0x1021

/-- The CRC's initial register (R9). -/
def CRC_INIT : U16 := 0xFFFF

/-- Header bytes: magic 2, version 1, type 1, sequence 4, length 2 (R9, D8). -/
def HDR : Nat := 10

/-- Bytes of the crc field (R9). -/
def CRC_LEN : Nat := 2

/-- The largest payload in bytes (R9). -/
def MAX_PAYLOAD : Nat := 65535

/-- The shortest frame in bytes (R9, R61). -/
def MIN_FRAME : Nat := 12

/-- The longest frame in bytes (R9, R61). -/
def MAX_FRAME : Nat := 65547

/-- Capacity of the receive buffer in bytes (R10): at least `MAX_FRAME`, otherwise open. -/
def BUF_CAP : Nat := MAX_FRAME + Config.bufCapExtra

end Sys2Proof
end

