-- ==== Sys2Proof/Syntax.lean ====
section
/-! DEFINITION. The commands of the block, one constructor per row of spec/opcode_table.json (30_encoding.md R81), and the
form in which the host presents one at the command port (R80, R82). -/

namespace Sys2Proof

/-- A command with its operands, as the opcode map lists them (R81, R82). The payload's length `plen` is not an operand of
its own: it equals `payload.length` (R82) and stands in `PortCommand`. -/
inductive Instr where
  /-- 0x0 NOP (R140). -/
  | nop
  /-- 0x1 CLEAR (R112). -/
  | clear
  /-- 0x2 CRCINIT (R93). -/
  | crcinit
  /-- 0x3 CRCBYTE b (R94). -/
  | crcbyte (b : Byte)
  /-- 0x4 FEED b (R110). -/
  | feed (b : Byte)
  /-- 0x5 TAKE (R113). -/
  | take
  /-- 0x6 ENCODE ty, seq, payload (R103). -/
  | encode (ty : Byte) (seq : U32) (payload : Bytes)
  /-- 0x7 FCRC ty, seq, payload (R104). -/
  | fcrc (ty : Byte) (seq : U32) (payload : Bytes)
  /-- 0x8 FVERIFY ty, seq, payload, crc (R105). -/
  | fverify (ty : Byte) (seq : U32) (payload : Bytes) (crc : U16)
  /-- 0x9, reserved (R141). -/
  | reserved9
  /-- 0xA, reserved (R141). -/
  | reservedA
  /-- 0xB, reserved (R141). -/
  | reservedB
  /-- 0xC, reserved (R141). -/
  | reservedC
  /-- 0xD, reserved (R141). -/
  | reservedD
  /-- 0xE, reserved (R141). -/
  | reservedE
  /-- 0xF, reserved (R141). -/
  | reservedF
deriving DecidableEq, Repr

/-- What the host drives on the command port: the opcode `op[3:0]` and every operand field of R82, used or not. The spec
gives the operand fields no bit positions (opcode_table.json: `fields` empty), so the encoded form is this record and no
bit string. DESIGN CHOICE, log 4 (safe). -/
structure PortCommand where
  /-- `op[3:0]`. -/
  op : BitVec 4
  /-- One data byte. -/
  b : Byte
  /-- The frame type byte. -/
  ty : Byte
  /-- The sequence number. -/
  seq : U32
  /-- The payload's declared length. -/
  plen : U16
  /-- The payload. -/
  payload : Bytes
  /-- A CRC value to check. -/
  crc : U16
deriving DecidableEq, Repr

end Sys2Proof
end

