-- ==== Sys2Proof/WellFormed.lean ====
section
/-! DEFINITION. Which commands are well-formed (30_encoding.md R82, 41_frame_codec.md R106). -/

namespace Sys2Proof

/-- Whether `op` selects a command with a payload: ENCODE 0x6, FCRC 0x7, FVERIFY 0x8 (R81). -/
def opHasPayload (op : BitVec 4) : Bool :=
  op == 0x6 || op == 0x7 || op == 0x8

/-- R82, R106: a payload of more than 65535 bytes cannot be formed; every other operand value is legal. -/
def Instr.wellFormed : Instr → Bool
  | .nop => true
  | .clear => true
  | .crcinit => true
  | .crcbyte _ => true
  | .feed _ => true
  | .take => true
  | .encode _ _ payload => decide (payload.length ≤ MAX_PAYLOAD)
  | .fcrc _ _ payload => decide (payload.length ≤ MAX_PAYLOAD)
  | .fverify _ _ payload _ => decide (payload.length ≤ MAX_PAYLOAD)
  | .reserved9 => true
  | .reservedA => true
  | .reservedB => true
  | .reservedC => true
  | .reservedD => true
  | .reservedE => true
  | .reservedF => true

/-- R106: a presented ENCODE, FCRC or FVERIFY has `plen = len(payload)`, and so at most 65535 payload bytes. The other
opcodes ignore both fields (R80). -/
def PortCommand.wellFormed (c : PortCommand) : Bool :=
  !opHasPayload c.op || decide (c.plen.toNat = c.payload.length)

end Sys2Proof
end

