-- ==== Sys2Proof/Decode.lean ====
section
/-! DEFINITION. From what the host presents at the command port to a command (30_encoding.md R80 to R85), and back. -/

namespace Sys2Proof

/-- Why a presented command is refused before it reaches the block. -/
inductive DecodeError where
  /-- ENCODE, FCRC or FVERIFY with `plen` different from `len(payload)` (R82, R106). -/
  | payloadLengthMismatch
deriving DecidableEq, Repr

/-- A frame command is formed only if `plen = len(payload)` (R106). -/
def decodeFrameCommand (c : PortCommand) (i : Instr) : Except DecodeError Instr :=
  if c.plen.toNat = c.payload.length then .ok i else .error .payloadLengthMismatch

/-- The opcode map (R81), one line for each of the 16 values of `op`, written as its bits 3, 2, 1, 0; total (R84). Operand
fields an opcode does not use are ignored (R80). -/
def decode (c : PortCommand) : Except DecodeError Instr :=
  match c.op.getLsbD 3, c.op.getLsbD 2, c.op.getLsbD 1, c.op.getLsbD 0 with
  | false, false, false, false => .ok .nop
  | false, false, false, true => .ok .clear
  | false, false, true, false => .ok .crcinit
  | false, false, true, true => .ok (.crcbyte c.b)
  | false, true, false, false => .ok (.feed c.b)
  | false, true, false, true => .ok .take
  | false, true, true, false => decodeFrameCommand c (.encode c.ty c.seq c.payload)
  | false, true, true, true => decodeFrameCommand c (.fcrc c.ty c.seq c.payload)
  | true, false, false, false => decodeFrameCommand c (.fverify c.ty c.seq c.payload c.crc)
  | true, false, false, true => .ok .reserved9
  | true, false, true, false => .ok .reservedA
  | true, false, true, true => .ok .reservedB
  | true, true, false, false => .ok .reservedC
  | true, true, false, true => .ok .reservedD
  | true, true, true, false => .ok .reservedE
  | true, true, true, true => .ok .reservedF

/-- A command without operands: every operand field is zero or empty. -/
def bareCommand (op : BitVec 4) : PortCommand :=
  { op := op, b := 0, ty := 0, seq := 0, plen := 0, payload := [], crc := 0 }

/-- A frame command: `plen` is the payload's length (R82). -/
def frameCommand (op : BitVec 4) (ty : Byte) (seq : U32) (payload : Bytes) (crc : U16) : PortCommand :=
  { bareCommand op with
    ty := ty, seq := seq, plen := BitVec.ofNat 16 payload.length, payload := payload, crc := crc }

/-- How the host presents a command (R81, R82). A field the opcode does not use is left zero; the block ignores it
(R80). -/
def encode : Instr → PortCommand
  | .nop => bareCommand 0x0
  | .clear => bareCommand 0x1
  | .crcinit => bareCommand 0x2
  | .crcbyte b => { bareCommand 0x3 with b := b }
  | .feed b => { bareCommand 0x4 with b := b }
  | .take => bareCommand 0x5
  | .encode ty seq payload => frameCommand 0x6 ty seq payload 0
  | .fcrc ty seq payload => frameCommand 0x7 ty seq payload 0
  | .fverify ty seq payload crc => frameCommand 0x8 ty seq payload crc
  | .reserved9 => bareCommand 0x9
  | .reservedA => bareCommand 0xA
  | .reservedB => bareCommand 0xB
  | .reservedC => bareCommand 0xC
  | .reservedD => bareCommand 0xD
  | .reservedE => bareCommand 0xE
  | .reservedF => bareCommand 0xF

/-- The port command of a word numbered as spec/opcode_table.json numbers it: `op` is bits 3 to 0 of the `nbits` bits of
`w`; the table gives the operand fields no bits, so they are zero and the payload is empty. DESIGN CHOICE, log 4
(safe). -/
def tableCommand (nbits w : Nat) : PortCommand :=
  bareCommand (BitVec.ofNat 4 (w % 2 ^ nbits))

/-- The command the decoder reads from a word of spec/opcode_table.json. -/
def decodeTableWord (nbits w : Nat) : Option Instr :=
  (decode (tableCommand nbits w)).toOption

end Sys2Proof
end

