-- ==== Sys2Proof/Machine/State.lean ====
section
/-! DEFINITION. The state of one block and its host's side of the command port (10_state.md R20 to R30; 30_encoding.md
R83), what can stop a step, and the state after reset. -/

namespace Sys2Proof.Machine

/-- What TAKE extracts (R83, R122, D18): the source's tuple `(type, sequence, payload, crc_valid)`. -/
structure Frame where
  /-- The type byte, as received. -/
  ty : Byte
  /-- The sequence number, as received. -/
  seq : U32
  /-- The payload, as received. -/
  payload : Bytes
  /-- Whether the received CRC equals the recomputed one (R26, R123). -/
  crcValid : Bool
deriving DecidableEq, Repr

/-- A response with what it carries (R83). -/
inductive Response where
  /-- OK: NOP, CLEAR, CRCINIT, CRCBYTE, FEED accepted. -/
  | ok
  /-- NEED_MORE: TAKE without a complete frame. -/
  | needMore
  /-- FRAME: TAKE with a frame. -/
  | frame (f : Frame)
  /-- CRC: FCRC. -/
  | crc (value : U16)
  /-- VERDICT: FVERIFY. -/
  | verdict (ok : Bool)
  /-- BYTES: ENCODE. -/
  | bytes (frame : Bytes)
  /-- REJECTED: FEED into a full buffer. -/
  | rejected
  /-- ILLEGAL: a reserved opcode. -/
  | illegal
deriving DecidableEq, Repr

/-- The eight response kinds (R83, D24). -/
inductive ResponseKind where
  | OK | NEED_MORE | FRAME | CRC | VERDICT | BYTES | REJECTED | ILLEGAL
deriving DecidableEq, Repr

/-- What the host does to the block at one instant (R7, R80, R171). -/
inductive HostInput where
  /-- A command is presented at the command port. -/
  | command (c : PortCommand)
  /-- Reset is driven, with the command that is presented together with it, if any (R155, R171, D20). That command need
  not be well-formed: `step` drops it unseen. DESIGN CHOICE for an ill-formed one, log 17 (unsafe). -/
  | reset (presented : Option PortCommand)
deriving DecidableEq, Repr

/-- What stops the machine with a fault: nothing. The block raises no exception and takes no trap (R150, R156); every
abnormal condition of R151 is a response or is silent. DEDUCED, log 10 (safe). -/
inductive Fault
deriving DecidableEq, Repr

/-- Why a step has no meaning. -/
inductive Refusal where
  /-- An instruction without a meaning: raised only by an arm of `exec` (there is none). Safe: the run stops. -/
  | notModelled (mnemonic : String)
  /-- Raised by `step` for a command presented alone that is not well-formed (R106: a model refuses it before it reaches
  the block; it has no response and no effect). DESIGN CHOICE, log 5 (safe: the run stops). One presented together with
  reset does not raise it: log 17. -/
  | illFormedCommand (reason : DecodeError)
  /-- Raised by ENCODE, FCRC and FVERIFY for a payload of more than 65535 bytes, which no presented command can carry
  (R106, D13). DESIGN CHOICE, log 6 (safe: the run stops). -/
  | payloadTooLong
deriving DecidableEq, Repr

/-- One block and its host's side of the command port. `crcReg` and `rxBuf` are the whole state of the block (R20);
`inputs` and `responses` belong to the host (R28) and stand here because a step has no other way to read or answer. -/
structure State where
  /-- `crc_reg : u16`, the CRC unit's running register (R22). -/
  crcReg : BitVec 16
  /-- `rx_buf`, the parser's receive buffer, oldest byte first (R23). -/
  rxBuf : List (BitVec 8)
  /-- What the host will do, next first: its command stream and the reset input (R7, R28, R41). The MODEL's own.
  DESIGN CHOICE, log 1 (safe). -/
  inputs : List HostInput
  /-- Every response returned so far, oldest first (R28, R83). The MODEL's own. DESIGN CHOICE, log 2 (safe). -/
  responses : List Response
deriving DecidableEq, Repr

/-- The machine right after reset: `crc_reg = 0xFFFF` and `rx_buf = []` (R30, R170). Nothing is presented and nothing has
been returned: DESIGN CHOICE, log 1 and log 2 (safe). -/
def State.reset : State :=
  { crcReg := CRC_INIT, rxBuf := [], inputs := [], responses := [] }

end Sys2Proof.Machine
end

