-- ==== Sys2Proof/Machine/Ops.lean ====
section
/-! DEFINITION. The shared operations on State. The block has no exception entry and no return from one (60_exceptions.md
R150, R156), so there is no such operation here: a command ends in exactly one response (20_memory.md R40). -/

namespace Sys2Proof.Machine

/-- `respond(K, ...)`: ends a command with one response (R15, R40, R83). -/
def State.respond (s : State) (r : Response) : State :=
  { s with responses := s.responses ++ [r] }

/-- `crc_reg <- v` (R15). -/
def State.setCrcReg (s : State) (v : U16) : State :=
  { s with crcReg := v }

/-- `rx_buf <- b` (R15). -/
def State.setRxBuf (s : State) (b : Bytes) : State :=
  { s with rxBuf := b }

/-- The host's inputs that remain to be presented. -/
def State.setInputs (s : State) (is : List HostInput) : State :=
  { s with inputs := is }

/-- The reset action (R170): every piece of the block's state takes its reset value of R30; no response. What the host
holds is no state of the block (R28) and stays. DEDUCED, log 9 (safe). -/
def State.resetBlock (s : State) : State :=
  (s.setCrcReg CRC_INIT).setRxBuf []

/-- The response to the command executed last. -/
def State.lastResponse (s : State) : Option Response :=
  s.responses.getLast?

/-- The kind of a response (R83). -/
def responseKind : Response → ResponseKind
  | .ok => .OK
  | .needMore => .NEED_MORE
  | .frame _ => .FRAME
  | .crc _ => .CRC
  | .verdict _ => .VERDICT
  | .bytes _ => .BYTES
  | .rejected => .REJECTED
  | .illegal => .ILLEGAL

/-- The 3-bit code of a response kind (R83, D24). -/
def kindCode : ResponseKind → BitVec 3
  | .OK => 0
  | .NEED_MORE => 1
  | .FRAME => 2
  | .CRC => 3
  | .VERDICT => 4
  | .BYTES => 5
  | .REJECTED => 6
  | .ILLEGAL => 7

/-- The frames among some responses, in order. -/
def framesIn (rs : List Response) : List Frame :=
  rs.filterMap fun r => match r with
    | .frame f => some f
    | _ => none

/-- The output stream that some responses carry: the bytes of the BYTES responses, concatenated in order (R53). -/
def outputStream (rs : List Response) : Bytes :=
  rs.flatMap fun r => match r with
    | .bytes f => f
    | _ => []

end Sys2Proof.Machine
end

