-- ==== Sys2Proof/Machine/Control.lean ====
section
/-! DEFINITION. The control commands (43_control.md R140, R141): NOP and the seven reserved opcodes. -/

namespace Sys2Proof.Machine

/-- NOP (R140). -/
def execNop (s : State) : Host.Outcome State Fault Refusal :=
  .next (s.respond .ok)

/-- A reserved opcode (R141): the response ILLEGAL, and no state of the block changes. The response is also the record of
the host's fault that R141 asks for (Safety.lean). DEDUCED, log 7 (safe). -/
def State.respondIllegal (s : State) : Host.Outcome State Fault Refusal :=
  .next (s.respond .illegal)

/-- Reserved opcode 0x9 (R141). -/
def execReserved9 (s : State) : Host.Outcome State Fault Refusal :=
  s.respondIllegal

/-- Reserved opcode 0xA (R141). -/
def execReservedA (s : State) : Host.Outcome State Fault Refusal :=
  s.respondIllegal

/-- Reserved opcode 0xB (R141). -/
def execReservedB (s : State) : Host.Outcome State Fault Refusal :=
  s.respondIllegal

/-- Reserved opcode 0xC (R141). -/
def execReservedC (s : State) : Host.Outcome State Fault Refusal :=
  s.respondIllegal

/-- Reserved opcode 0xD (R141). -/
def execReservedD (s : State) : Host.Outcome State Fault Refusal :=
  s.respondIllegal

/-- Reserved opcode 0xE (R141). -/
def execReservedE (s : State) : Host.Outcome State Fault Refusal :=
  s.respondIllegal

/-- Reserved opcode 0xF (R141). -/
def execReservedF (s : State) : Host.Outcome State Fault Refusal :=
  s.respondIllegal

end Sys2Proof.Machine
end

