-- ==== Sys2Proof/Machine/Flags.lean ====
section
/-! DEFINITION. The block has no persistent flags (10_state.md R26). Here are the three status outputs, pure functions of the
state (R25), and the one result indication that is computed, `crc_valid` (R26, R123). -/

namespace Sys2Proof.Machine

/-- `crc_out : u16 = crc_reg` (R25). -/
def crcOut (s : State) : U16 :=
  s.crcReg

/-- `rx_level = len(rx_buf)` (R25), as a number. -/
def rxLevel (s : State) : Nat :=
  s.rxBuf.length

/-- The width of the `rx_level` output: `ceil(log2(BUF_CAP + 1))` bits, which hold `BUF_CAP` (R25). -/
def rxLevelWidth : Nat :=
  Nat.clog 2 (BUF_CAP + 1)

/-- The `rx_level` output as the word the block drives (R25). -/
def rxLevelOut (s : State) : BitVec rxLevelWidth :=
  BitVec.ofNat rxLevelWidth (rxLevel s)

/-- Whether a buffer of `n` bytes has room for one more: `n < BUF_CAP` (R25, R110). `BUF_CAP >= MAX_FRAME` (R10), so the
first test is true only where the second is; it lets the kernel evaluate short buffers although `BUF_CAP` is open. -/
def hasRoom (n : Nat) : Bool :=
  decide (n < MAX_FRAME) || decide (n < BUF_CAP)

/-- `in_ready : bool = (len(rx_buf) < BUF_CAP)` (R25). -/
def inReady (s : State) : Bool :=
  hasRoom s.rxBuf.length

/-- `(crc_rx = crc_calc)`, a comparison of all 16 bits (R26, R105, R123). -/
def crcMatches (crcRx crcCalc : U16) : Bool :=
  decide (crcRx = crcCalc)

end Sys2Proof.Machine
end

