-- ==== Sys2Proof/Machine/Crc.lean ====
section
/-! DEFINITION. The CRC unit (40_crc.md R90 to R95): the CRC16-CCITT function and the commands CRCINIT and CRCBYTE. -/

namespace Sys2Proof.Machine

/-- One shift of R90: left by one, and POLY in if bit 15 was set. -/
def crcShift (c : U16) : U16 :=
  if c.getLsbD 15 then (c <<< 1) ^^^ POLY else c <<< 1

/-- `n` shifts of R90. -/
def crcShifts : Nat → U16 → U16
  | 0, c => c
  | n + 1, c => crcShifts n (crcShift c)

/-- `crc_step(c, b)` (R90): the byte into bits 15..8, then eight shifts. -/
def crcStep (c : U16) (b : Byte) : U16 :=
  crcShifts 8 (c ^^^ (b.zeroExtend 16 <<< 8))

/-- The CRC of a byte sequence from a given register value, index 0 first. -/
def crcFrom (c : U16) (bs : Bytes) : U16 :=
  bs.foldl crcStep c

/-- `crc16(bs)` (R91): from CRC_INIT, with no final XOR and no reflection. -/
def crc16 (bs : Bytes) : U16 :=
  crcFrom CRC_INIT bs

/-- CRCINIT (R93). -/
def execCrcinit (s : State) : Host.Outcome State Fault Refusal :=
  .next ((s.setCrcReg CRC_INIT).respond .ok)

/-- CRCBYTE b (R94). -/
def execCrcbyte (b : Byte) (s : State) : Host.Outcome State Fault Refusal :=
  .next ((s.setCrcReg (crcStep s.crcReg b)).respond .ok)

end Sys2Proof.Machine
end

