-- ==== Sys2Proof/Machine/Operands.lean ====
section
/-! DEFINITION. How multi-byte fields are assembled from bytes and laid out as bytes (00_scope.md R14; 20_memory.md R44;
30_encoding.md R63 to R65). Byte order is decided here and nowhere else (R48). -/

namespace Sys2Proof.Machine

/-- `le16(x, y)` (R14): `x` is the low byte. -/
def le16 (x y : Byte) : U16 :=
  x.zeroExtend 16 ||| (y.zeroExtend 16 <<< 8)

/-- `le32(w, x, y, z)` (R14): `w` is the lowest byte. -/
def le32 (w x y z : Byte) : U32 :=
  w.zeroExtend 32 ||| (x.zeroExtend 32 <<< 8) ||| (y.zeroExtend 32 <<< 16) ||| (z.zeroExtend 32 <<< 24)

/-- `bytes16le(v) = [v[7:0], v[15:8]]` (R14). -/
def bytes16le (v : U16) : Bytes :=
  [v.extractLsb' 0 8, v.extractLsb' 8 8]

/-- `bytes32le(v) = [v[7:0], v[15:8], v[23:16], v[31:24]]` (R14). -/
def bytes32le (v : U32) : Bytes :=
  [v.extractLsb' 0 8, v.extractLsb' 8 8, v.extractLsb' 16 8, v.extractLsb' 24 8]

/-- `b[i]` (R14), read by TAKE at offsets below `len(b)` only, so the default is never the value read (log 12). -/
def byteAt (b : Bytes) (i : Nat) : Byte :=
  b.getD i 0

/-- `b[i..j)`, the half-open slice of bytes i to j-1 (R14). -/
def slice (b : Bytes) (i j : Nat) : Bytes :=
  (b.drop i).take (j - i)

end Sys2Proof.Machine
end

