-- ==== Sys2Proof/Machine/FrameCodec.lean ====
section
/-! DEFINITION. The frame serializer and its CRC helper (41_frame_codec.md R100 to R106): ENCODE, FCRC and FVERIFY. They read
and write no state of the block. -/

namespace Sys2Proof.Machine

/-- `frame_body(ty, seq, payload)` (R100), the CRC-covered part of a frame (R62). -/
def frameBody (ty : Byte) (seq : U32) (payload : Bytes) : Bytes :=
  [VERSION, ty] ++ bytes32le seq ++ bytes16le (BitVec.ofNat 16 payload.length) ++ payload

/-- `frame_crc(ty, seq, payload)` (R101). -/
def frameCrc (ty : Byte) (seq : U32) (payload : Bytes) : U16 :=
  crc16 (frameBody ty seq payload)

/-- `encode_frame(ty, seq, payload)` (R102). -/
def encodeFrame (ty : Byte) (seq : U32) (payload : Bytes) : Bytes :=
  [MAGIC0, MAGIC1] ++ frameBody ty seq payload ++ bytes16le (frameCrc ty seq payload)

/-- R100 and R106: the frame functions are defined for payloads of at most 65535 bytes, and a command with a longer one is
refused by name; otherwise the command is its one response. -/
def respondIfFormed (payload : Bytes) (r : Response) (s : State) : Host.Outcome State Fault Refusal :=
  if payload.length ≤ MAX_PAYLOAD then .next (s.respond r) else .refused .payloadTooLong

/-- ENCODE ty, seq, payload (R103). -/
def execEncode (ty : Byte) (seq : U32) (payload : Bytes) (s : State) : Host.Outcome State Fault Refusal :=
  respondIfFormed payload (.bytes (encodeFrame ty seq payload)) s

/-- FCRC ty, seq, payload (R104). -/
def execFcrc (ty : Byte) (seq : U32) (payload : Bytes) (s : State) : Host.Outcome State Fault Refusal :=
  respondIfFormed payload (.crc (frameCrc ty seq payload)) s

/-- FVERIFY ty, seq, payload, crc (R105). -/
def execFverify (ty : Byte) (seq : U32) (payload : Bytes) (crc : U16) (s : State) :
    Host.Outcome State Fault Refusal :=
  respondIfFormed payload (.verdict (crcMatches crc (frameCrc ty seq payload))) s

end Sys2Proof.Machine
end

