-- ==== Sys2Proof/Machine/StreamParser.lean ====
section
/-! DEFINITION. The stream synchronizer (42_stream_parser.md R110 to R124): FEED, CLEAR and TAKE. -/

namespace Sys2Proof.Machine

/-- `find_marker(b)` (R14, R117): the least k with `b[k] = MAGIC0` and `b[k+1] = MAGIC1`, the two bytes compared
separately (R46). -/
def findMarker : Bytes → Option Nat
  | x :: y :: rest =>
    if x = MAGIC0 ∧ y = MAGIC1 then some 0 else (findMarker (y :: rest)).map (· + 1)
  | _ => none

/-- How one pass through TAKE's loop ends, with the receive buffer it leaves. -/
inductive PassEnd where
  /-- `respond(NEED_MORE)`. -/
  | needMore (rest : Bytes)
  /-- `continue loop` (step 5). -/
  | restart (rest : Bytes)
  /-- `respond(FRAME, ...)` (step 7). -/
  | frame (f : Frame) (rest : Bytes)
deriving DecidableEq, Repr

/-- The declared payload length of a buffer that starts with a header (R65, R119, R121). -/
def declaredLength (b : Bytes) : Nat :=
  (le16 (byteAt b 8) (byteAt b 9)).toNat

/-- Step 7 on a complete frame with `n` payload bytes at the front of `b` (R122, R123). -/
def extractFrame (b : Bytes) (n : Nat) : Frame :=
  { ty := byteAt b 3
    seq := le32 (byteAt b 4) (byteAt b 5) (byteAt b 6) (byteAt b 7)
    payload := slice b HDR (HDR + n)
    crcValid :=
      crcMatches (le16 (byteAt b (HDR + n)) (byteAt b (HDR + n + 1))) (crc16 (slice b 2 (HDR + n))) }

/-- Steps 4 to 7 on a buffer that starts with the marker (R118 to R124). -/
def syncPass (b : Bytes) : PassEnd :=
  if b.length < HDR then .needMore b
  else if byteAt b 2 ≠ VERSION then .restart (b.drop 2)
  else
    let n := declaredLength b
    let total := HDR + n + CRC_LEN
    if b.length < total then .needMore b else .frame (extractFrame b n) (b.drop total)

/-- One pass through TAKE's loop (R113): steps 1 to 3 (R114 to R116), then steps 4 to 7. -/
def takePass (b : Bytes) : PassEnd :=
  if b.length < 2 then .needMore b
  else
    match findMarker b with
    | none => .needMore []
    | some k => syncPass (b.drop k)

/-- At most `n` passes of TAKE's loop: the extracted frame, if any, and the buffer that is left; `none` while the loop has
not ended within `n` passes. -/
def takeLoop : Nat → Bytes → Option (Option Frame × Bytes)
  | 0, _ => none
  | n + 1, b =>
    match takePass b with
    | .needMore rest => some (none, rest)
    | .frame f rest => some (some f, rest)
    | .restart rest => takeLoop n rest

/-- TAKE's effect on the receive buffer. `floor(len(rx_buf) / 2) + 1` passes are enough (R126), so the default is never
what TAKE answers (log 11). -/
def takeBuf (b : Bytes) : Option Frame × Bytes :=
  (takeLoop (b.length / 2 + 1) b).getD (none, b)

/-- The response to a TAKE (R125): FRAME or NEED_MORE. -/
def takeResponse : Option Frame → Response
  | some f => .frame f
  | none => .needMore

/-- FEED b (R110, R111). -/
def execFeed (b : Byte) (s : State) : Host.Outcome State Fault Refusal :=
  if inReady s then .next ((s.setRxBuf (s.rxBuf ++ [b])).respond .ok) else .next (s.respond .rejected)

/-- CLEAR (R112). -/
def execClear (s : State) : Host.Outcome State Fault Refusal :=
  .next ((s.setRxBuf []).respond .ok)

/-- TAKE (R113), one atomic step (R40, D23). -/
def execTake (s : State) : Host.Outcome State Fault Refusal :=
  .next ((s.setRxBuf (takeBuf s.rxBuf).2).respond (takeResponse (takeBuf s.rxBuf).1))

end Sys2Proof.Machine
end

