-- ==== Sys2Proof/Machine/Dispatch.lean ====
section
/-! DEFINITION. One arm per command, each a direct call of its meaning (30_encoding.md R81). -/

namespace Sys2Proof.Machine

def exec (i : Instr) (s : State) : Host.Outcome State Fault Refusal :=
  match i with
  | .nop => Sys2Proof.Machine.execNop s
  | .clear => Sys2Proof.Machine.execClear s
  | .crcinit => Sys2Proof.Machine.execCrcinit s
  | .crcbyte b => Sys2Proof.Machine.execCrcbyte b s
  | .feed b => Sys2Proof.Machine.execFeed b s
  | .take => Sys2Proof.Machine.execTake s
  | .encode ty seq payload => Sys2Proof.Machine.execEncode ty seq payload s
  | .fcrc ty seq payload => Sys2Proof.Machine.execFcrc ty seq payload s
  | .fverify ty seq payload crc => Sys2Proof.Machine.execFverify ty seq payload crc s
  | .reserved9 => Sys2Proof.Machine.execReserved9 s
  | .reservedA => Sys2Proof.Machine.execReservedA s
  | .reservedB => Sys2Proof.Machine.execReservedB s
  | .reservedC => Sys2Proof.Machine.execReservedC s
  | .reservedD => Sys2Proof.Machine.execReservedD s
  | .reservedE => Sys2Proof.Machine.execReservedE s
  | .reservedF => Sys2Proof.Machine.execReservedF s

end Sys2Proof.Machine
end

