-- ==== Sys2Proof/Machine/Step.lean ====
section
/-! DEFINITION. One step of the machine: the next thing the host does (20_memory.md R40, R41; 70_reset_and_hazards.md R170,
R171), or nothing while the host presents nothing (60_exceptions.md R162). -/

namespace Sys2Proof.Machine

/-- One step. A presented command is decoded and executed whole (R40); one that is not well-formed is refused before it
reaches the block (R106; that this ends the run is log 5); reset wins over a command presented with it, which is not
executed and gets no response (R171); with nothing presented the block keeps its state (R162; log 8).
DESIGN CHOICE, log 17 (unsafe): a command presented with reset is dropped unseen even where it is ill-formed; the spec does
not say whether R106's refusal still ends the run there, and this model resets and goes on. -/
def step (s : State) : Host.Outcome State Fault Refusal :=
  match s.inputs with
  | [] => .next s
  | .reset _ :: rest => .next (s.resetBlock.setInputs rest)
  | .command c :: rest =>
    match decode c with
    | .ok i => exec i (s.setInputs rest)
    | .error e => .refused (.illFormedCommand e)

/-- `s` with the command of a word of spec/opcode_table.json presented next, before whatever was waiting: the very next
step decodes and runs it. The block fetches nothing (R21, R54); the host presents its commands (log 13). -/
def State.withFetchWord (s : State) (nbits w : Nat) : State :=
  s.setInputs (.command (tableCommand nbits w) :: s.inputs)

end Sys2Proof.Machine
end

