-- ==== Sys2Proof/Machine/HostSide.lean ====
section
/-! DEFINITION. The host's side of the command port: the pseudo-commands, which are shorthands and no commands of the block
(30_encoding.md R87), and the duties of 70_reset_and_hazards.md that are procedures (R174, R178). Each is a function over the
commands' meanings; none of them is called by `step`. -/

namespace Sys2Proof.Machine

/-- The host issues commands one after another (R7, R41). -/
def runInstrs : List Instr → State → Host.Outcome State Fault Refusal
  | [], s => .next s
  | i :: is, s =>
    match exec i s with
    | .next t => runInstrs is t
    | .fault r => .fault r
    | .refused r => .refused r

/-- What the host presents to have these commands executed: each in its encoded form (R80). -/
def presented (is : List Instr) : List HostInput :=
  is.map fun i => .command (encode i)

/-- `CRCBYTES [b0 ... bn-1]` (R87). -/
def crcBytesCommands (bs : Bytes) : List Instr :=
  bs.map .crcbyte

/-- `CRC [b0 ... bn-1]` (R87): CRCINIT, then CRCBYTES. -/
def crcCommands (bs : Bytes) : List Instr :=
  .crcinit :: crcBytesCommands bs

/-- The expansion of `FEEDS [b0 ... bn-1]` (R87), run by a host that does not look at the responses. -/
def feedCommands (bs : Bytes) : List Instr :=
  bs.map .feed

/-- `FEEDS [b0 ... bn-1]` (R87): FEED each byte in order, up to the first REJECTED response. With the state come the bytes
the host still holds: the rejected one and those after it. -/
def feeds : Bytes → State → Host.Outcome (State × Bytes) Fault Refusal
  | [], s => .next (s, [])
  | b :: bs, s =>
    match exec (.feed b) s with
    | .next t => if t.lastResponse = some .rejected then .next (t, b :: bs) else feeds bs t
    | .fault r => .fault r
    | .refused r => .refused r

/-- TAKE until a response is NEED_MORE, at most `n` times (R87, R174). -/
def drainWithin : Nat → State → Host.Outcome State Fault Refusal
  | 0, s => .next s
  | n + 1, s =>
    match exec .take s with
    | .next t => if t.lastResponse = some .needMore then .next t else drainWithin n t
    | .fault r => .fault r
    | .refused r => .refused r

/-- `DRAIN` (R87). It ends within `floor(len(rx_buf) / 12) + 1` TAKEs, which R87 states and an obligation says of the
model. -/
def drain (s : State) : Host.Outcome State Fault Refusal :=
  drainWithin (s.rxBuf.length / 12 + 1) s

/-- `RECV [b0 ... bn-1]` (R87): FEEDS, then DRAIN. With the state come the bytes the host still holds. -/
def recv (bs : Bytes) (s : State) : Host.Outcome (State × Bytes) Fault Refusal :=
  match feeds bs s with
  | .next (t, left) =>
    match drain t with
    | .next u => .next (u, left)
    | .fault r => .fault r
    | .refused r => .refused r
  | .fault r => .fault r
  | .refused r => .refused r

/-- A host that receives its stream in chunks, RECV on each (R130). A chunk that does not fit ends the run, and the bytes
the host still holds come back. -/
def recvChunks : List Bytes → State → Host.Outcome (State × Bytes) Fault Refusal
  | [], s => .next (s, [])
  | c :: cs, s =>
    match recv c s with
    | .next (t, left) => if left = [] then recvChunks cs t else .next (t, left ++ cs.flatten)
    | .fault r => .fault r
    | .refused r => .refused r

/-- One received byte at a time, RECV on each (R130, host B). -/
def recvBytewise (bs : Bytes) (s : State) : Host.Outcome (State × Bytes) Fault Refusal :=
  recvChunks (bs.map fun b => [b]) s

/-- The duty of R178: FEED the byte, and if it is REJECTED, TAKE and FEED it again. -/
def deliver (b : Byte) (s : State) : Host.Outcome State Fault Refusal :=
  match exec (.feed b) s with
  | .next t => if t.lastResponse = some .rejected then runInstrs [.take, .feed b] t else .next t
  | .fault r => .fault r
  | .refused r => .refused r

end Sys2Proof.Machine
end

