-- ==== Sys2Proof/Machine/TakeRules.lean ====
section
/-! DEFINITION. TAKE as the spec's rules R114 to R124 describe it, step by step, as a relation on the receive buffer: no loop
counter, no offsets. `TakeRule b f rest` says that a TAKE on the buffer `b` extracts `f` (nothing: NEED_MORE) and leaves
`rest`. TAKE's function `takeBuf` runs; this relation is what it is compared with. -/

namespace Sys2Proof.Machine

/-- A marker occurrence at offset `k` (R14, R117). -/
abbrev MarkerAt (b : Bytes) (k : Nat) : Prop :=
  b[k]? = some MAGIC0 ∧ b[k + 1]? = some MAGIC1

/-- The bytes of a header after its marker (R60, R119): version, type, sequence, length. -/
def headerTail (version ty s0 s1 s2 s3 l0 l1 : Byte) : Bytes :=
  [version, ty, s0, s1, s2, s3, l0, l1]

/-- TAKE's steps (R113), one constructor each. -/
inductive TakeRule : Bytes → Option Frame → Bytes → Prop where
  /-- Step 1 (R114): fewer than 2 bytes stay. -/
  | short (b : Bytes) : b.length < 2 → TakeRule b none b
  /-- Step 2 (R115): without a marker every byte goes. -/
  | noMarker (b : Bytes) : 2 ≤ b.length → (∀ k, ¬ MarkerAt b k) → TakeRule b none []
  /-- Step 3 (R116, R117): the bytes before the leftmost marker go, and the rest is treated as if they had not been
  there. -/
  | noise (noise b : Bytes) (f : Option Frame) (rest : Bytes) :
      noise ≠ [] → MarkerAt b 0 → (∀ k, k < noise.length → ¬ MarkerAt (noise ++ b) k) → TakeRule b f rest →
      TakeRule (noise ++ b) f rest
  /-- Step 4 (R118): fewer than 10 bytes from the marker on wait. -/
  | shortHeader (tail : Bytes) : tail.length < 8 →
      TakeRule (MAGIC0 :: MAGIC1 :: tail) none (MAGIC0 :: MAGIC1 :: tail)
  /-- Step 5 (R120): on a wrong version exactly the 2 marker bytes go, and the step starts again. -/
  | wrongVersion (v : Byte) (tail : Bytes) (f : Option Frame) (rest : Bytes) :
      7 ≤ tail.length → v ≠ VERSION → TakeRule (v :: tail) f rest → TakeRule (MAGIC0 :: MAGIC1 :: v :: tail) f rest
  /-- Step 6 (R121): a frame that is not complete waits. -/
  | shortFrame (ty s0 s1 s2 s3 l0 l1 : Byte) (tail : Bytes) :
      tail.length < (le16 l0 l1).toNat + 2 →
      TakeRule (MAGIC0 :: MAGIC1 :: (headerTail VERSION ty s0 s1 s2 s3 l0 l1 ++ tail)) none
        (MAGIC0 :: MAGIC1 :: (headerTail VERSION ty s0 s1 s2 s3 l0 l1 ++ tail))
  /-- Step 7 (R122 to R124): a complete frame is returned, whatever its CRC, and exactly its bytes are consumed. -/
  | complete (ty s0 s1 s2 s3 l0 l1 c0 c1 : Byte) (payload rest : Bytes) :
      payload.length = (le16 l0 l1).toNat →
      TakeRule
        (MAGIC0 :: MAGIC1 :: (headerTail VERSION ty s0 s1 s2 s3 l0 l1 ++ payload ++ [c0, c1] ++ rest))
        (some
          { ty := ty, seq := le32 s0 s1 s2 s3, payload := payload
            crcValid :=
              decide (le16 c0 c1 = crc16 (headerTail VERSION ty s0 s1 s2 s3 l0 l1 ++ payload)) })
        rest

end Sys2Proof.Machine
end

