-- ==== Sys2Proof/Safety.lean ====
section
/-! DEFINITION. What every state of a run satisfies, what the spec forbids of a final state, and the buffer shapes of
10_state.md R29: the terms in which claims are stated. -/

namespace Sys2Proof.Machine

/-- What the spec says of every response's contents (R83): a FRAME's payload has at most 65535 bytes, BYTES carries 12 to
65547 bytes. -/
def Response.sized : Response → Bool
  | .frame f => decide (f.payload.length ≤ MAX_PAYLOAD)
  | .bytes f => decide (MIN_FRAME ≤ f.length ∧ f.length ≤ MAX_FRAME)
  | _ => true

/-- What holds in every state of a run: `len(rx_buf) <= BUF_CAP` (R24), and every response has the size R83 gives it. -/
def State.Inv (s : State) : Prop :=
  s.rxBuf.length ≤ BUF_CAP ∧ ∀ r ∈ s.responses, r.sized = true

/-- The record of a host fault (R141, D4): the host has issued a reserved opcode. -/
def State.hostFaulted (s : State) : Bool :=
  s.responses.contains .illegal

/-- A state a run may end in: nothing is left to present, and no host fault is recorded (R141: never take it as a final
state). -/
def State.Final (s : State) : Prop :=
  s.inputs = [] ∧ s.hostFaulted = false

/-- The shapes (a), (b) and (c) of R29. -/
def WaitingShape (b : Bytes) : Prop :=
  b.length ≤ 1 ∨
  ([MAGIC0, MAGIC1] <+: b ∧ 2 ≤ b.length ∧ b.length < HDR) ∨
  ([MAGIC0, MAGIC1, VERSION] <+: b ∧ HDR ≤ b.length ∧ b.length < HDR + declaredLength b + CRC_LEN)

/-- One bit of one byte flipped. -/
def flipBit (b : Bytes) (i j : Nat) : Bytes :=
  b.modify i (· ^^^ (1#8 <<< j))

/-- A complete frame of any type, sequence, payload and CRC field (R60, R130 (i)). -/
def anyFrame (ty : Byte) (seq : U32) (payload : Bytes) (crc : U16) : Bytes :=
  [MAGIC0, MAGIC1] ++ frameBody ty seq payload ++ bytes16le crc

/-- The bytes a list of commands feeds, in order. -/
def fedBytes (is : List Instr) : Bytes :=
  is.filterMap fun i => match i with
    | .feed b => some b
    | _ => none

/-- The bytes a list of commands feeds that the block accepted, given the commands' responses (R52). -/
def acceptedBytes (is : List Instr) (rs : List Response) : Bytes :=
  (is.zip rs).filterMap fun p => match p with
    | (.feed b, .ok) => some b
    | _ => none

/-- The bytes a list of commands puts into the CRC register (R95). -/
def crcInput (is : List Instr) : Bytes :=
  is.filterMap fun i => match i with
    | .crcbyte b => some b
    | _ => none

/-- The frames that at most `n` TAKEs extract from a buffer up to the first NEED_MORE, and the buffer left (R87 DRAIN, on
the buffer alone). -/
def drainBuf : Nat → Bytes → List Frame × Bytes
  | 0, b => ([], b)
  | n + 1, b =>
    match takeBuf b with
    | (none, rest) => ([], rest)
    | (some f, rest) => (f :: (drainBuf n rest).1, (drainBuf n rest).2)

/-- The condition of R130 (ii) in one DRAIN: its last TAKE empties (step 2) a buffer whose last byte is MAGIC0, and the next
byte of the stream is MAGIC1. -/
def drainLosesMarker : Nat → Bytes → Bytes → Prop
  | 0, _, _ => False
  | n + 1, b, next =>
    match takeBuf b with
    | (none, rest) => rest = [] ∧ b.getLast? = some MAGIC0 ∧ next.head? = some MAGIC1
    | (some _, rest) => drainLosesMarker n rest next

/-- The condition of R130 (ii) at some TAKE of a host that DRAINs after every byte: from the buffer `b`, with `stream` still
to come. -/
def bytewiseLosesMarker : Bytes → Bytes → Prop
  | _, [] => False
  | b, x :: stream =>
    drainLosesMarker (b.length + 2) (b ++ [x]) stream ∨
      bytewiseLosesMarker (drainBuf (b.length + 2) (b ++ [x])).2 stream

end Sys2Proof.Machine
end

