-- ==== Sys2Proof/Certificates/Slice0/Obligations.lean ====
section
/-! DEFINITION. The statements for the provers: what spec/ says that the block does, rule by rule. Nothing is proved here. -/

open Sys2Proof Sys2Proof.Machine

/-! ## The command port -/

/-- Decoding an encoded well-formed command gives it back, with every operand at every value (R81, R82). -/
def Obligations.DecodeInvertsEncode : Prop :=
  ∀ i : Instr, i.wellFormed = true → decode (encode i) = .ok i

/-- A decoded command is well-formed, and its operands are the port's fields, taken as they are (R82). -/
def Obligations.DecodedOperandsAreThePortFields : Prop :=
  ∀ (c : PortCommand) (i : Instr), decode c = .ok i →
    i.wellFormed = true ∧ (encode i).op = c.op ∧
    (c.op = 0x3 → i = .crcbyte c.b) ∧
    (c.op = 0x4 → i = .feed c.b) ∧
    (c.op = 0x6 → i = .encode c.ty c.seq c.payload) ∧
    (c.op = 0x7 → i = .fcrc c.ty c.seq c.payload) ∧
    (c.op = 0x8 → i = .fverify c.ty c.seq c.payload c.crc) ∧
    (opHasPayload c.op = true → c.plen.toNat = c.payload.length ∧ c.payload.length ≤ 65535)

/-- Operand fields an opcode does not use are ignored (R80). -/
def Obligations.UnusedOperandFieldsAreIgnored : Prop :=
  ∀ c d : PortCommand, c.op = d.op →
    (c.op = 0x3 ∨ c.op = 0x4 → c.b = d.b) →
    (opHasPayload c.op = true → c.ty = d.ty ∧ c.seq = d.seq ∧ c.plen = d.plen ∧ c.payload = d.payload) →
    (c.op = 0x8 → c.crc = d.crc) →
    decode c = decode d

/-- Decoding `op` is total (R84): a presented command is decoded unless it is a frame command whose `plen` is not its
payload's length (R106), and only then it is refused. -/
def Obligations.DecodeRefusesOnlyLengthMismatch : Prop :=
  ∀ c : PortCommand,
    (decode c = .error .payloadLengthMismatch ↔ opHasPayload c.op = true ∧ c.plen.toNat ≠ c.payload.length) ∧
    ((∃ i, decode c = .ok i) ↔ c.wellFormed = true)

/-- The opcode map (R81), all 16 rows, each with its operands. -/
def Obligations.OpcodeMapRows : Prop :=
  ∀ (b ty : Byte) (seq : U32) (plen : U16) (payload : Bytes) (crc : U16), plen.toNat = payload.length →
    let c := fun op : BitVec 4 => PortCommand.mk op b ty seq plen payload crc
    decode (c 0x0) = .ok .nop ∧ decode (c 0x1) = .ok .clear ∧ decode (c 0x2) = .ok .crcinit ∧
    decode (c 0x3) = .ok (.crcbyte b) ∧ decode (c 0x4) = .ok (.feed b) ∧ decode (c 0x5) = .ok .take ∧
    decode (c 0x6) = .ok (.encode ty seq payload) ∧ decode (c 0x7) = .ok (.fcrc ty seq payload) ∧
    decode (c 0x8) = .ok (.fverify ty seq payload crc) ∧ decode (c 0x9) = .ok .reserved9 ∧
    decode (c 0xA) = .ok .reservedA ∧ decode (c 0xB) = .ok .reservedB ∧ decode (c 0xC) = .ok .reservedC ∧
    decode (c 0xD) = .ok .reservedD ∧ decode (c 0xE) = .ok .reservedE ∧ decode (c 0xF) = .ok .reservedF

/-- A few commands written out from the encodings of the spec's programs P1, P2 and P3 decode to what they stand for, and
three words of the opcode table to their rows, CLEAR, TAKE and the reserved opcode 0xF (R81, R141). That a table word is its
bits 3 to 0, with every operand field zero, is the model's choice (log 4, DESIGN CHOICE). -/
def Obligations.SpecProgramWordsDecode : Prop :=
  decode { op := 0x3, b := 0x31, ty := 0, seq := 0, plen := 0, payload := [], crc := 0 } = .ok (.crcbyte 0x31) ∧
  decode { op := 0x4, b := 0x5B, ty := 0, seq := 0, plen := 0, payload := [], crc := 0 } = .ok (.feed 0x5B) ∧
  decode { op := 0x6, b := 0, ty := 0x03, seq := 0x00000001, plen := 2, payload := [0xDE, 0xAD], crc := 0 } =
    .ok (.encode 0x03 0x00000001 [0xDE, 0xAD]) ∧
  decode { op := 0x8, b := 0, ty := 0x03, seq := 0x00000001, plen := 2, payload := [0xDE, 0xAD], crc := 0x5BEC } =
    .ok (.fverify 0x03 0x00000001 [0xDE, 0xAD] 0x5BEC) ∧
  decodeTableWord 8 0x1 = some .clear ∧ decodeTableWord 8 0x5 = some .take ∧ decodeTableWord 8 0xF = some .reservedF

/-- A step with a command presented is `exec` of the decoded command, on the state without that input. With nothing
presented the block is idle and keeps its state (R162; that this is a step is the model's choice, log 8). -/
def Obligations.StepRunsTheDecodedCommand : Prop :=
  (∀ (s : State) (c : PortCommand) (rest : List HostInput) (i : Instr),
    s.inputs = .command c :: rest → decode c = .ok i → step s = exec i { s with inputs := rest }) ∧
  (∀ s : State, s.inputs = [] → step s = .next s)

/-- R106 has a model refuse an ill-formed frame command before it reaches the block. The forms of the refusal are the
model's choice: at the port (`plen` is not the payload's length) the run ends in `illFormedCommand` (log 5, DESIGN CHOICE),
and as a term (more than 65535 payload bytes) the meanings themselves answer `payloadTooLong` (log 6, DESIGN CHOICE). -/
def Obligations.IllFormedFrameCommandIsRefused : Prop :=
  (∀ (s : State) (c : PortCommand) (rest : List HostInput), s.inputs = .command c :: rest →
    opHasPayload c.op = true → c.plen.toNat ≠ c.payload.length →
    step s = .refused (.illFormedCommand .payloadLengthMismatch)) ∧
  (∀ (ty : Byte) (seq : U32) (payload : Bytes) (crc : U16) (s : State), 65535 < payload.length →
    exec (.encode ty seq payload) s = .refused .payloadTooLong ∧
    exec (.fcrc ty seq payload) s = .refused .payloadTooLong ∧
    exec (.fverify ty seq payload crc) s = .refused .payloadTooLong)

/-- R170, R171: reset sets both pieces of state, gives no response, and wins over a command presented with it. What the
host holds stays (the model's choice, log 9). That this holds also for an ill-formed command presented with reset, where
R106's refusal could end the run, is the model's choice too (log 17, DESIGN CHOICE). -/
def Obligations.ResetInputResetsTheBlock : Prop :=
  ∀ (s : State) (presented : Option PortCommand) (rest : List HostInput), s.inputs = .reset presented :: rest →
    step s = .next { crcReg := 0xFFFF, rxBuf := [], inputs := rest, responses := s.responses }

/-- The reset values (R30). -/
def Obligations.ResetValues : Prop :=
  State.reset.crcReg = 0xFFFF ∧ State.reset.rxBuf = [] ∧
  crcOut State.reset = 0xFFFF ∧ rxLevel State.reset = 0 ∧ inReady State.reset = true

/-- Commands take effect in the order the host presents them, each on the state the one before left (R41): a run over a
list of presented commands is the commands' meanings one after another. -/
def Obligations.PresentedCommandsRunInOrder : Prop :=
  ∀ (is : List Instr) (s : State) (rest : List HostInput), (∀ i ∈ is, i.wellFormed = true) →
    s.inputs = presented is ++ rest →
    Host.Core.run Sys2Proof.core is.length s = runInstrs is { s with inputs := rest }

/-- Every well-formed command completes in every state (R157), with exactly one response (R40). -/
def Obligations.EveryCommandCompletesWithOneResponse : Prop :=
  ∀ (i : Instr) (s : State), i.wellFormed = true →
    ∃ t r, exec i s = .next t ∧ t.responses = s.responses ++ [r] ∧ t.inputs = s.inputs

/-- The response table (R83): the kinds with their codes, which command produces which, and what each carries. -/
def Obligations.ResponsesByCommand : Prop :=
  (∀ f : Frame, ∀ v : U16, ∀ ok : Bool, ∀ bs : Bytes,
    kindCode (responseKind .ok) = 0 ∧ kindCode (responseKind .needMore) = 1 ∧
    kindCode (responseKind (.frame f)) = 2 ∧ kindCode (responseKind (.crc v)) = 3 ∧
    kindCode (responseKind (.verdict ok)) = 4 ∧ kindCode (responseKind (.bytes bs)) = 5 ∧
    kindCode (responseKind .rejected) = 6 ∧ kindCode (responseKind .illegal) = 7) ∧
  ∀ (i : Instr) (s t : State), exec i s = .next t → ∃ r, t.responses = s.responses ++ [r] ∧
    match i with
    | .nop | .clear | .crcinit | .crcbyte _ => r = .ok
    | .feed _ => r = .ok ∨ (r = .rejected ∧ BUF_CAP ≤ s.rxBuf.length)
    | .take => r = .needMore ∨ ∃ f, r = .frame f ∧ f.payload.length ≤ 65535
    | .encode _ _ _ => ∃ bs, r = .bytes bs ∧ 12 ≤ bs.length ∧ bs.length ≤ 65547
    | .fcrc _ _ _ => ∃ v, r = .crc v
    | .fverify _ _ _ _ => ∃ v, r = .verdict v
    | .reserved9 | .reservedA | .reservedB | .reservedC | .reservedD | .reservedE | .reservedF => r = .illegal

/-! ## The state -/

/-- Every step keeps the invariant: the buffer within its capacity (R24), every response of the size R83 gives it. -/
def Obligations.StepKeepsTheInvariant : Prop :=
  ∀ s t : State, s.Inv → step s = .next t → t.Inv

/-- The state after reset meets the invariant. -/
def Obligations.ResetMeetsTheInvariant : Prop :=
  State.reset.Inv

/-- The status outputs (R25): pure functions of the state, and `rx_level` has the width that holds its value, 17 bits for
`BUF_CAP = 65547`. -/
def Obligations.StatusOutputs : Prop :=
  (∀ s : State, crcOut s = s.crcReg ∧ rxLevel s = s.rxBuf.length ∧ (inReady s = true ↔ s.rxBuf.length < BUF_CAP) ∧
    (s.rxBuf.length ≤ BUF_CAP → (rxLevelOut s).toNat = s.rxBuf.length)) ∧
  (BUF_CAP = 65547 → rxLevelWidth = 17)

/-- Only CRCINIT and CRCBYTE write `crc_reg`, and no other command reads it (R22): any other command does the same whatever
the register holds, and leaves it as it was. -/
def Obligations.OnlyCrcCommandsUseCrcReg : Prop :=
  ∀ (i : Instr) (s t : State) (v : U16), i ≠ .crcinit → (∀ b, i ≠ .crcbyte b) → exec i s = .next t →
    t.crcReg = s.crcReg ∧ exec i { s with crcReg := v } = .next { t with crcReg := v }

/-- Who writes `rx_buf` and how (R23): FEED appends one byte or nothing, TAKE removes a prefix of it, CLEAR and reset remove
all of it, every other command leaves it. That reset goes on also with an ill-formed command beside it is the model's
choice (log 17, DESIGN CHOICE); the clause speaks of the step that goes on. -/
def Obligations.RxBufWriters : Prop :=
  (∀ (i : Instr) (s t : State), exec i s = .next t →
    match i with
    | .feed b => t.rxBuf = s.rxBuf ∨ t.rxBuf = s.rxBuf ++ [b]
    | .take => ∃ gone, s.rxBuf = gone ++ t.rxBuf
    | .clear => t.rxBuf = []
    | _ => t.rxBuf = s.rxBuf) ∧
  (∀ (s t : State) (c : Option PortCommand) (rest : List HostInput), s.inputs = .reset c :: rest → step s = .next t →
    t.rxBuf = [])

/-- `rx_buf` is first in, first out over any run of commands (R52): what was in it and the accepted bytes, in order, are
what left it and then what is in it. -/
def Obligations.RxBufIsFirstInFirstOut : Prop :=
  ∀ (is : List Instr) (s t : State), runInstrs is s = .next t →
    ∃ rs gone, rs.length = is.length ∧ t.responses = s.responses ++ rs ∧
      s.rxBuf ++ acceptedBytes is rs = gone ++ t.rxBuf

/-- The output stream is the concatenation, in command order, of the encoded frames; no other command emits a byte
(R53). -/
def Obligations.OutputStreamIsTheEncodedFrames : Prop :=
  ∀ (is : List Instr) (s t : State), runInstrs is s = .next t →
    outputStream t.responses = outputStream s.responses ++
      is.flatMap fun i => match i with
        | .encode ty seq payload => encodeFrame ty seq payload
        | _ => []

/-! ## Control commands -/

/-- NOP does nothing and responds OK (R140). -/
def Obligations.NopResult : Prop :=
  ∀ s : State, exec .nop s = .next { s with responses := s.responses ++ [.ok] }

/-- Each reserved opcode responds ILLEGAL and changes no state of the block (R141). -/
def Obligations.ReservedOpcodesRespondIllegal : Prop :=
  ∀ (i : Instr) (s : State),
    i ∈ [Instr.reserved9, .reservedA, .reservedB, .reservedC, .reservedD, .reservedE, .reservedF] →
    exec i s = .next { s with responses := s.responses ++ [.illegal] }

/-- A host fault stays on record: a reserved opcode records it, and no later step, reset among them, takes it off, so no
state after it is a final state (R141; the record is the model's, log 7). -/
def Obligations.HostFaultStaysOnRecord : Prop :=
  (∀ (i : Instr) (s t : State),
    i ∈ [Instr.reserved9, .reservedA, .reservedB, .reservedC, .reservedD, .reservedE, .reservedF] →
    exec i s = .next t → t.hostFaulted = true ∧ ¬ t.Final) ∧
  (∀ s t : State, s.hostFaulted = true → step s = .next t → t.hostFaulted = true ∧ ¬ t.Final)

/-! ## The CRC unit -/

/-- CRCINIT's whole effect (R93). -/
def Obligations.CrcinitResult : Prop :=
  ∀ s : State, exec .crcinit s = .next { s with crcReg := 0xFFFF, responses := s.responses ++ [.ok] }

/-- CRCBYTE's whole effect (R94): the byte into bits 15..8, then eight shifts that each feed the top bit back (R90). -/
def Obligations.CrcbyteResult : Prop :=
  ∀ (b : Byte) (s : State),
    let shift := fun c : U16 => if c.getLsbD 15 then (c <<< 1) ^^^ 0x1021#16 else c <<< 1
    exec (.crcbyte b) s =
      .next { s with
        crcReg := shift^[8] (s.crcReg ^^^ (b.zeroExtend 16 <<< 8))
        responses := s.responses ++ [.ok] }

/-- `crc16` starts at 0xFFFF and takes the bytes in order (R91). -/
def Obligations.CrcOfASequence : Prop :=
  crc16 [] = 0xFFFF ∧ ∀ (bs : Bytes) (b : Byte), crc16 (bs ++ [b]) = crcStep (crc16 bs) b

/-- After a CRCINIT and any commands without another CRCINIT, `crc_reg` is the CRC of the bytes the CRCBYTEs gave, whatever
stands between them (R95). -/
def Obligations.IncrementalCrcIsTheFunction : Prop :=
  ∀ (is : List Instr) (s t : State), Instr.crcinit ∉ is → runInstrs (.crcinit :: is) s = .next t →
    t.crcReg = crc16 (crcInput is)

/-- The pseudo-command CRC leaves the CRC of its bytes on `crc_out` (R87), and its commands all complete. -/
def Obligations.CrcPseudoCommand : Prop :=
  ∀ (bs : Bytes) (s : State), ∃ t, runInstrs (crcCommands bs) s = .next t ∧ crcOut t = crc16 bs ∧ t.rxBuf = s.rxBuf ∧
    t.responses = s.responses ++ List.replicate (bs.length + 1) .ok

/-- Each byte is processed most significant bit first (R47): the byte step is eight steps of the bit-serial register. -/
def Obligations.CrcStepIsBitSerial : Prop :=
  ∀ (c : U16) (b : Byte),
    crcStep c b =
      [7, 6, 5, 4, 3, 2, 1, 0].foldl
        (fun (r : U16) (k : Nat) => if (r.getLsbD 15 != b.getLsbD k) = true then (r <<< 1) ^^^ 0x1021#16 else r <<< 1)
        c

/-- `crc16` is affine over GF(2) (R96). -/
def Obligations.CrcIsAffine : Prop :=
  ∀ a e : Bytes, a.length = e.length → crc16 (List.zipWith (· ^^^ ·) a e) = crc16 a ^^^ crcFrom 0 e

/-- Every single-bit error within the covered bytes changes the CRC (R96). -/
def Obligations.SingleBitErrorChangesTheCrc : Prop :=
  ∀ (bs : Bytes) (i j : Nat), i < bs.length → j < 8 → crc16 (flipBit bs i j) ≠ crc16 bs

/-! ## The frame serializer -/

/-- ENCODE's whole effect (R100 to R103): the frame's bytes in the response, and no state changes. -/
def Obligations.EncodeResult : Prop :=
  ∀ (ty : Byte) (seq : U32) (payload : Bytes) (s : State), payload.length ≤ 65535 →
    let body := [0x01#8, ty] ++ bytes32le seq ++ bytes16le (BitVec.ofNat 16 payload.length) ++ payload
    exec (.encode ty seq payload) s =
      .next { s with responses := s.responses ++ [.bytes ([0x55#8, 0xAA#8] ++ body ++ bytes16le (crc16 body))] }

/-- FCRC's whole effect (R104, R101). -/
def Obligations.FcrcResult : Prop :=
  ∀ (ty : Byte) (seq : U32) (payload : Bytes) (s : State), payload.length ≤ 65535 →
    let body := [0x01#8, ty] ++ bytes32le seq ++ bytes16le (BitVec.ofNat 16 payload.length) ++ payload
    exec (.fcrc ty seq payload) s = .next { s with responses := s.responses ++ [.crc (crc16 body)] }

/-- FVERIFY's whole effect (R105). -/
def Obligations.FverifyResult : Prop :=
  ∀ (ty : Byte) (seq : U32) (payload : Bytes) (crc : U16) (s : State), payload.length ≤ 65535 →
    let body := [0x01#8, ty] ++ bytes32le seq ++ bytes16le (BitVec.ofNat 16 payload.length) ++ payload
    exec (.fverify ty seq payload crc) s =
      .next { s with responses := s.responses ++ [.verdict (decide (crc = crc16 body))] }

/-- The wire frame, field by field, as a receiver reads it (R60 to R65). -/
def Obligations.FrameLayout : Prop :=
  ∀ (ty : Byte) (seq : U32) (payload : Bytes), payload.length ≤ 65535 →
    let f := encodeFrame ty seq payload
    let n := payload.length
    f.length = 12 + n ∧
    f[0]? = some 0x55 ∧ f[1]? = some 0xAA ∧ f[2]? = some 0x01 ∧ f[3]? = some ty ∧
    le32 (byteAt f 4) (byteAt f 5) (byteAt f 6) (byteAt f 7) = seq ∧
    (le16 (byteAt f 8) (byteAt f 9)).toNat = n ∧
    slice f 10 (10 + n) = payload ∧
    le16 (byteAt f (10 + n)) (byteAt f (11 + n)) = crc16 (slice f 2 (10 + n))

/-- FCRC's response is the last two bytes of ENCODE's response to the same operands, and FVERIFY's verdict for a received
CRC is the `crc_valid` that TAKE reports for the same frame (corner cases of R104 and R105). -/
def Obligations.HelpersAgreeWithTheWire : Prop :=
  ∀ (ty : Byte) (seq : U32) (payload : Bytes) (crc : U16) (s : State), payload.length ≤ 65535 →
    exec (.encode ty seq payload) s =
      .next { s with responses := s.responses ++ [.bytes (encodeFrame ty seq payload)] } ∧
    exec (.fcrc ty seq payload) s = .next { s with responses := s.responses ++ [.crc (frameCrc ty seq payload)] } ∧
    (encodeFrame ty seq payload).drop (10 + payload.length) = bytes16le (frameCrc ty seq payload) ∧
    ∃ v, exec (.fverify ty seq payload crc) s = .next { s with responses := s.responses ++ [.verdict v] } ∧
      exec .take { s with rxBuf := anyFrame ty seq payload crc } =
        .next { s with rxBuf := [], responses := s.responses ++ [.frame ⟨ty, seq, payload, v⟩] }

/-- The wire format is uniquely decodable: two streams that begin with encoded frames and are equal begin with the same
frame and go on equally (R60, R68). -/
def Obligations.FramesAreUniquelyDecodable : Prop :=
  ∀ (ty ty' : Byte) (seq seq' : U32) (p p' x y : Bytes), p.length ≤ 65535 → p'.length ≤ 65535 →
    encodeFrame ty seq p ++ x = encodeFrame ty' seq' p' ++ y → ty = ty' ∧ seq = seq' ∧ p = p' ∧ x = y

/-! ## The stream synchronizer -/

/-- FEED's whole effect (R110, R111). -/
def Obligations.FeedResult : Prop :=
  ∀ (b : Byte) (s : State),
    (s.rxBuf.length < BUF_CAP →
      exec (.feed b) s = .next { s with rxBuf := s.rxBuf ++ [b], responses := s.responses ++ [.ok] }) ∧
    (¬ s.rxBuf.length < BUF_CAP → exec (.feed b) s = .next { s with responses := s.responses ++ [.rejected] })

/-- CLEAR's whole effect (R112). -/
def Obligations.ClearResult : Prop :=
  ∀ s : State, exec .clear s = .next { s with rxBuf := [], responses := s.responses ++ [.ok] }

/-- TAKE is the algorithm of R113: it always completes, and its frame and the buffer it leaves are the ones, and the only
ones, that the steps 1 to 7 give. -/
def Obligations.TakeIsTheStepByStepAlgorithm : Prop :=
  ∀ s : State, ∃ (f : Option Frame) (rest : Bytes),
    exec .take s = .next { s with
      rxBuf := rest
      responses := s.responses ++ [match f with | some g => Response.frame g | none => .needMore] } ∧
    ∀ (g : Option Frame) (q : Bytes), TakeRule s.rxBuf g q ↔ g = f ∧ q = rest

/-- Steps 1 and 2 (R114, R115): fewer than 2 bytes are kept, a longer buffer without a marker is emptied, a trailing MAGIC0
with it; both times the response is NEED_MORE. -/
def Obligations.TakeWithoutAMarker : Prop :=
  ∀ s : State,
    (s.rxBuf.length < 2 → exec .take s = .next { s with responses := s.responses ++ [.needMore] }) ∧
    (2 ≤ s.rxBuf.length → (∀ k, ¬ MarkerAt s.rxBuf k) →
      exec .take s = .next { s with rxBuf := [], responses := s.responses ++ [.needMore] })

/-- Step 3 (R116): the bytes before the leftmost marker are discarded, whatever the same TAKE then responds: it does what it
would do on the buffer without them, which starts with the marker. -/
def Obligations.TakeDiscardsBytesBeforeTheMarker : Prop :=
  ∀ (s : State) (k : Nat), MarkerAt s.rxBuf k → (∀ j, j < k → ¬ MarkerAt s.rxBuf j) →
    MarkerAt (s.rxBuf.drop k) 0 ∧ exec .take s = exec .take { s with rxBuf := s.rxBuf.drop k }

/-- The marker search finds the leftmost occurrence and nothing else, and two occurrences start at least 2 bytes apart
(R117). -/
def Obligations.MarkerSearchIsLeftmost : Prop :=
  ∀ b : Bytes,
    (∀ k, findMarker b = some k ↔ MarkerAt b k ∧ ∀ j, j < k → ¬ MarkerAt b j) ∧
    (findMarker b = none ↔ ∀ k, ¬ MarkerAt b k) ∧
    (∀ j k, MarkerAt b j → MarkerAt b k → j < k → j + 2 ≤ k)

/-- Steps 4 and 6 (R118, R121): from the marker on, fewer than 10 bytes wait, and so does a frame with version 1 that is
shorter than its declared length asks for; the version is not looked at before 10 bytes are there. -/
def Obligations.TakeWaitsForACompleteFrame : Prop :=
  ∀ (s : State) (tail : Bytes), s.rxBuf = 0x55#8 :: 0xAA#8 :: tail →
    (s.rxBuf.length < 10 → exec .take s = .next { s with responses := s.responses ++ [.needMore] }) ∧
    (10 ≤ s.rxBuf.length → byteAt s.rxBuf 2 = 0x01 →
      s.rxBuf.length < 12 + (le16 (byteAt s.rxBuf 8) (byteAt s.rxBuf 9)).toNat →
      exec .take s = .next { s with responses := s.responses ++ [.needMore] })

/-- Step 5 (R120): on a wrong version exactly the 2 marker bytes are discarded and TAKE restarts on the rest, in which every
other marker is still there (R131). -/
def Obligations.TakeSkipsAWrongVersion : Prop :=
  ∀ (s : State) (v : Byte) (tail : Bytes), s.rxBuf = 0x55#8 :: 0xAA#8 :: v :: tail → 10 ≤ s.rxBuf.length → v ≠ 0x01 →
    exec .take s = exec .take { s with rxBuf := v :: tail } ∧
    ¬ MarkerAt s.rxBuf 1 ∧ ∀ k, MarkerAt s.rxBuf (k + 2) ↔ MarkerAt (v :: tail) k

/-- Step 7 (R122 to R124): a complete frame is returned as received, with `crc_valid` the comparison of all 16 bits, and
exactly its bytes are consumed, whether the CRC matches or not. -/
def Obligations.TakeReturnsACompleteFrame : Prop :=
  ∀ (s : State) (ty s0 s1 s2 s3 l0 l1 c0 c1 : Byte) (payload rest : Bytes),
    payload.length = (le16 l0 l1).toNat →
    s.rxBuf = [0x55#8, 0xAA#8, 0x01#8, ty, s0, s1, s2, s3, l0, l1] ++ payload ++ [c0, c1] ++ rest →
    exec .take s = .next { s with
      rxBuf := rest
      responses := s.responses ++
        [.frame
          { ty := ty, seq := le32 s0 s1 s2 s3, payload := payload
            crcValid := decide (le16 c0 c1 = crc16 ([0x01#8, ty, s0, s1, s2, s3, l0, l1] ++ payload)) }] }

/-- TAKE's loop ends (R126): a restart shortens the buffer by at least 2 bytes, and `floor(len / 2) + 1` passes are always
enough. -/
def Obligations.TakeLoopEnds : Prop :=
  (∀ b rest : Bytes, takePass b = .restart rest → rest.length + 2 ≤ b.length) ∧
  (∀ b : Bytes, takeLoop (b.length / 2 + 1) b ≠ none)

/-- Soundness of TAKE: the bytes it removes are a discarded prefix and then, for a FRAME, exactly the wire bytes of that
frame, valid if and only if its CRC is the right one (R127); what stays is the unchanged suffix. -/
def Obligations.TakenFrameWasOnTheWire : Prop :=
  ∀ s t : State, exec .take s = .next t →
    (t.lastResponse = some .needMore ∧ ∃ gone, s.rxBuf = gone ++ t.rxBuf) ∨
    ∃ (f : Frame) (crc : U16) (gone : Bytes), t.lastResponse = some (.frame f) ∧ f.payload.length ≤ 65535 ∧
      s.rxBuf = gone ++ anyFrame f.ty f.seq f.payload crc ++ t.rxBuf ∧
      f.crcValid = decide (crc = frameCrc f.ty f.seq f.payload)

/-- After NEED_MORE the buffer has one of the three shapes of R29, and a further TAKE responds NEED_MORE and changes nothing
(R128, R51). -/
def Obligations.NeedMoreIsStable : Prop :=
  ∀ s t : State, exec .take s = .next t → t.lastResponse = some .needMore →
    WaitingShape t.rxBuf ∧ exec .take t = .next { t with responses := t.responses ++ [.needMore] }

/-- A TAKE on a full buffer removes at least one byte (R129). -/
def Obligations.TakeOnAFullBufferMakesRoom : Prop :=
  ∀ s : State, s.rxBuf.length = BUF_CAP → ∃ t, exec .take s = .next t ∧ t.rxBuf.length < s.rxBuf.length

/-- Back-pressure never deadlocks (R178): a host that TAKEs after a REJECTED and feeds the byte again has it accepted. -/
def Obligations.RejectedByteIsDeliveredAfterTake : Prop :=
  ∀ (b : Byte) (s : State), s.rxBuf.length ≤ BUF_CAP →
    ∃ t kept, deliver b s = .next t ∧ t.lastResponse = some .ok ∧ t.rxBuf = kept ++ [b] ∧ kept <:+ s.rxBuf ∧
      t.crcReg = s.crcReg

/-- Round trip (R107): feed the bytes of an encoded frame into an empty buffer, with TAKEs wherever one likes, each of which
responds NEED_MORE; the first TAKE after the last byte returns exactly the frame, valid, and the buffer is empty. -/
def Obligations.EncodedFrameRoundTrip : Prop :=
  ∀ (ty : Byte) (seq : U32) (payload : Bytes) (s : State) (js : List Instr) (last : Byte),
    payload.length ≤ 65535 → s.rxBuf = [] → (∀ i ∈ js, i = .take ∨ ∃ b, i = .feed b) →
    fedBytes (js ++ [.feed last]) = encodeFrame ty seq payload →
    runInstrs (js ++ [.feed last, .take]) s =
      .next { s with
        responses := s.responses ++ js.map (fun i => if i = .take then Response.needMore else .ok) ++
          [.ok, .frame { ty := ty, seq := seq, payload := payload, crcValid := true }] }

/-- DRAIN ends within `floor(len(rx_buf) / 12) + 1` TAKEs, with the response NEED_MORE (R87), and `crc_reg` is as
before. -/
def Obligations.DrainEndsWithNeedMore : Prop :=
  ∀ s : State, ∃ t, drain s = .next t ∧ t.lastResponse = some .needMore ∧ t.crcReg = s.crcReg ∧ t.inputs = s.inputs

/-- R130 (i): a stream of complete version-1 frames, with any types, sequences, payloads and CRC fields, gives the same
frames, in order, and an empty buffer, however it is cut into chunks with a DRAIN after each. -/
def Obligations.CompleteFramesSurviveAnyChunking : Prop :=
  ∀ (fs : List (Byte × U32 × Bytes × U16)) (chunks : List Bytes) (s : State),
    (∀ f ∈ fs, f.2.2.1.length ≤ 65535) → s.rxBuf = [] →
    chunks.flatten = fs.flatMap (fun f => anyFrame f.1 f.2.1 f.2.2.1 f.2.2.2) → chunks.flatten.length ≤ BUF_CAP →
    ∃ t, recvChunks chunks s = .next (t, []) ∧ t.rxBuf = [] ∧
      framesIn t.responses = framesIn s.responses ++
        fs.map (fun f => ⟨f.1, f.2.1, f.2.2.1, decide (f.2.2.2 = frameCrc f.1 f.2.1 f.2.2.1)⟩)

/-- R130 (ii): feeding any stream at once or byte by byte gives the same frames, unless at some TAKE of the second host step
2 empties a buffer whose last byte is MAGIC0 and the next byte is MAGIC1. -/
def Obligations.OnlyASplitMarkerMakesChunkingDiffer : Prop :=
  ∀ (stream : Bytes) (s : State), s.rxBuf = [] → stream.length ≤ BUF_CAP → ¬ bytewiseLosesMarker [] stream →
    ∃ t u, recv stream s = .next (t, []) ∧ recvBytewise stream s = .next (u, []) ∧
      framesIn t.responses = framesIn u.responses

/-- R177: after an odd number of bytes without a marker, a host that feeds and drains byte by byte loses the next marker: no
frame so far, and of the two marker bytes only the second is left. -/
def Obligations.OddNoiseLosesTheMarkerBytewise : Prop :=
  ∀ (noise : Bytes) (s : State), s.rxBuf = [] → noise.length % 2 = 1 → (∀ k, ¬ MarkerAt noise k) →
    ∃ t, recvBytewise (noise ++ [0x55, 0xAA]) s = .next (t, []) ∧ t.rxBuf = [0xAA] ∧
      framesIn t.responses = framesIn s.responses

/-- R132: noise whose every marker is followed by a wrong version does not hide the frame after it, fed at once. -/
def Obligations.FalseMarkersInNoiseAreSkipped : Prop :=
  ∀ (noise : Bytes) (ty : Byte) (seq : U32) (payload : Bytes) (crc : U16) (s : State),
    payload.length ≤ 65535 → s.rxBuf = [] → (noise ++ anyFrame ty seq payload crc).length ≤ BUF_CAP →
    (∀ k, k < noise.length → MarkerAt (noise ++ anyFrame ty seq payload crc) k →
      (noise ++ anyFrame ty seq payload crc)[k + 2]? ≠ some VERSION) →
    ∃ t, recv (noise ++ anyFrame ty seq payload crc) s = .next (t, []) ∧ t.rxBuf = [] ∧
      framesIn t.responses = framesIn s.responses ++
        [⟨ty, seq, payload, decide (crc = frameCrc ty seq payload)⟩]

/-- R133, type, sequence, payload and CRC field: one flipped bit gives exactly one FRAME, with the fields as received and
`crc_valid = false`, without exception. -/
def Obligations.SingleBitErrorInTheBodyIsReported : Prop :=
  ∀ (ty : Byte) (seq : U32) (payload : Bytes) (i j : Nat) (s : State), payload.length ≤ 65535 → s.rxBuf = [] → j < 8 →
    (3 ≤ i ∧ i ≤ 7 ∨ 10 ≤ i ∧ i < 12 + payload.length) →
    let f := flipBit (encodeFrame ty seq payload) i j
    ∃ t, recv f s = .next (t, []) ∧ t.rxBuf = [] ∧
      framesIn t.responses = framesIn s.responses ++
        [{ ty := byteAt f 3
           seq := le32 (byteAt f 4) (byteAt f 5) (byteAt f 6) (byteAt f 7)
           payload := slice f 10 (10 + payload.length)
           crcValid := false }]

/-- R133, magic and version: with one bit of the magic flipped no marker starts at offset 0 or 1, and if there is none at all
DRAIN gives no FRAME and empties the buffer; with one bit of the version flipped no FRAME has F's boundaries, and if no
marker in the rest is followed by VERSION there is no FRAME at all. -/
def Obligations.SingleBitErrorInMagicOrVersion : Prop :=
  ∀ (ty : Byte) (seq : U32) (payload : Bytes) (i j : Nat) (s : State), payload.length ≤ 65535 → s.rxBuf = [] → j < 8 →
    let f := flipBit (encodeFrame ty seq payload) i j
    (i < 2 → ¬ MarkerAt f 0 ∧ ¬ MarkerAt f 1 ∧
      ((∀ k, ¬ MarkerAt f k) → ∃ t, recv f s = .next (t, []) ∧ t.rxBuf = [] ∧
        framesIn t.responses = framesIn s.responses)) ∧
    (i = 2 → ∃ t fs, recv f s = .next (t, []) ∧ framesIn t.responses = framesIn s.responses ++ fs ∧
      (∀ g ∈ fs, g.payload.length + 2 ≤ payload.length) ∧
      ((∀ k, 2 ≤ k → MarkerAt f k → f[k + 2]? ≠ some VERSION) → fs = []))

/-- R133, length: with one bit of the length flipped, a larger declared length makes the parser wait with the buffer kept; a
smaller one gives first a FRAME of that many payload bytes, with `crc_valid` computed against the two bytes that follow
them. -/
def Obligations.SingleBitErrorInTheLength : Prop :=
  ∀ (ty : Byte) (seq : U32) (payload : Bytes) (i j : Nat) (s : State), payload.length ≤ 65535 → j < 8 →
    (i = 8 ∨ i = 9) →
    s.rxBuf = flipBit (encodeFrame ty seq payload) i j →
    let n := (le16 (byteAt s.rxBuf 8) (byteAt s.rxBuf 9)).toNat
    n ≠ payload.length ∧
    (payload.length < n → exec .take s = .next { s with responses := s.responses ++ [.needMore] }) ∧
    (n < payload.length → exec .take s = .next { s with
      rxBuf := s.rxBuf.drop (12 + n)
      responses := s.responses ++
        [.frame
          { ty := ty, seq := seq, payload := payload.take n
            crcValid := decide
              (le16 (byteAt s.rxBuf (10 + n)) (byteAt s.rxBuf (11 + n)) =
                crc16 (frameBody ty seq (payload.take n))) }] })
end

