-- ==== Sys2Proof/Laws/State.lean ====
section
/-! SUPPORT. One lemma per field of State per update of it, and the updates' commutations that a run needs. -/

namespace Sys2Proof.Machine

@[simp] theorem State.respond_crcReg (s : State) (r : Response) : (s.respond r).crcReg = s.crcReg := rfl

@[simp] theorem State.respond_rxBuf (s : State) (r : Response) : (s.respond r).rxBuf = s.rxBuf := rfl

@[simp] theorem State.respond_inputs (s : State) (r : Response) : (s.respond r).inputs = s.inputs := rfl

@[simp] theorem State.respond_responses (s : State) (r : Response) : (s.respond r).responses = s.responses ++ [r] := rfl

@[simp] theorem State.setCrcReg_crcReg (s : State) (v : U16) : (s.setCrcReg v).crcReg = v := rfl

@[simp] theorem State.setCrcReg_rxBuf (s : State) (v : U16) : (s.setCrcReg v).rxBuf = s.rxBuf := rfl

@[simp] theorem State.setCrcReg_inputs (s : State) (v : U16) : (s.setCrcReg v).inputs = s.inputs := rfl

@[simp] theorem State.setCrcReg_responses (s : State) (v : U16) : (s.setCrcReg v).responses = s.responses := rfl

@[simp] theorem State.setRxBuf_crcReg (s : State) (b : Bytes) : (s.setRxBuf b).crcReg = s.crcReg := rfl

@[simp] theorem State.setRxBuf_rxBuf (s : State) (b : Bytes) : (s.setRxBuf b).rxBuf = b := rfl

@[simp] theorem State.setRxBuf_inputs (s : State) (b : Bytes) : (s.setRxBuf b).inputs = s.inputs := rfl

@[simp] theorem State.setRxBuf_responses (s : State) (b : Bytes) : (s.setRxBuf b).responses = s.responses := rfl

@[simp] theorem State.setInputs_crcReg (s : State) (is : List HostInput) : (s.setInputs is).crcReg = s.crcReg := rfl

@[simp] theorem State.setInputs_rxBuf (s : State) (is : List HostInput) : (s.setInputs is).rxBuf = s.rxBuf := rfl

@[simp] theorem State.setInputs_inputs (s : State) (is : List HostInput) : (s.setInputs is).inputs = is := rfl

@[simp] theorem State.setInputs_responses (s : State) (is : List HostInput) : (s.setInputs is).responses = s.responses := rfl

@[simp] theorem State.resetBlock_crcReg (s : State) : s.resetBlock.crcReg = CRC_INIT := rfl

@[simp] theorem State.resetBlock_rxBuf (s : State) : s.resetBlock.rxBuf = [] := rfl

@[simp] theorem State.resetBlock_inputs (s : State) : s.resetBlock.inputs = s.inputs := rfl

@[simp] theorem State.resetBlock_responses (s : State) : s.resetBlock.responses = s.responses := rfl

@[simp] theorem State.reset_crcReg : State.reset.crcReg = CRC_INIT := rfl

@[simp] theorem State.reset_rxBuf : State.reset.rxBuf = [] := rfl

@[simp] theorem State.reset_inputs : State.reset.inputs = [] := rfl

@[simp] theorem State.reset_responses : State.reset.responses = [] := rfl

@[simp] theorem State.setCrcReg_self (s : State) : s.setCrcReg s.crcReg = s := rfl

@[simp] theorem State.setRxBuf_self (s : State) : s.setRxBuf s.rxBuf = s := rfl

@[simp] theorem State.setInputs_self (s : State) : s.setInputs s.inputs = s := rfl

@[simp] theorem State.setRxBuf_setRxBuf (s : State) (a b : Bytes) : (s.setRxBuf a).setRxBuf b = s.setRxBuf b := rfl

@[simp] theorem State.setInputs_setInputs (s : State) (a b : List HostInput) :
    (s.setInputs a).setInputs b = s.setInputs b := rfl

/-- Commands never look at the pending inputs: an update of them passes through every other update. -/
theorem State.setInputs_respond (s : State) (r : Response) (is : List HostInput) :
    (s.respond r).setInputs is = (s.setInputs is).respond r := rfl

/-- As `setInputs_respond`, for the CRC register. -/
theorem State.setInputs_setCrcReg (s : State) (v : U16) (is : List HostInput) :
    (s.setCrcReg v).setInputs is = (s.setInputs is).setCrcReg v := rfl

/-- As `setInputs_respond`, for the receive buffer. -/
theorem State.setInputs_setRxBuf (s : State) (b : Bytes) (is : List HostInput) :
    (s.setRxBuf b).setInputs is = (s.setInputs is).setRxBuf b := rfl

/-- Two states are equal when their four fields are. -/
theorem State.eq_of_fields {s t : State} (hc : s.crcReg = t.crcReg) (hr : s.rxBuf = t.rxBuf)
    (hi : s.inputs = t.inputs) (ho : s.responses = t.responses) : s = t := by
  cases s
  cases t
  simp_all

@[simp] theorem State.lastResponse_respond (s : State) (r : Response) :
    (s.respond r).lastResponse = some r := by
  simp [State.lastResponse]

end Sys2Proof.Machine
end

