-- ==== Sys2Proof/Laws/Basics.lean ====
section
/-! SUPPORT. The constants as numbers, the room test, and the byte-order helpers: what every proof about buffers uses. -/

namespace Sys2Proof.Machine

@[simp] theorem HDR_eq : HDR = 10 := rfl

@[simp] theorem CRC_LEN_eq : CRC_LEN = 2 := rfl

@[simp] theorem MAX_PAYLOAD_eq : MAX_PAYLOAD = 65535 := rfl

@[simp] theorem MIN_FRAME_eq : MIN_FRAME = 12 := rfl

@[simp] theorem MAX_FRAME_eq : MAX_FRAME = 65547 := rfl

/-- R10. -/
theorem MAX_FRAME_le_BUF_CAP : 65547 ≤ BUF_CAP :=
  Nat.le_add_right _ _

theorem MAGIC0_ne_MAGIC1 : MAGIC0 ≠ MAGIC1 := by decide

theorem hasRoom_iff (n : Nat) : hasRoom n = true ↔ n < BUF_CAP := by
  have h := MAX_FRAME_le_BUF_CAP
  rw [hasRoom, Bool.or_eq_true, decide_eq_true_eq, decide_eq_true_eq, MAX_FRAME_eq]
  constructor
  · rintro (h' | h')
    · exact Nat.lt_of_lt_of_le h' h
    · exact h'
  · exact Or.inr

@[simp] theorem inReady_iff (s : State) : inReady s = true ↔ s.rxBuf.length < BUF_CAP :=
  hasRoom_iff _

@[simp] theorem bytes16le_length (v : U16) : (bytes16le v).length = 2 := rfl

@[simp] theorem bytes32le_length (v : U32) : (bytes32le v).length = 4 := rfl

/-- Reading back a stored 16-bit field (R63, R65). -/
@[simp] theorem le16_bytes16le (v : U16) : le16 (v.extractLsb' 0 8) (v.extractLsb' 8 8) = v := by
  apply BitVec.eq_of_getLsbD_eq
  intro i hi
  simp only [le16, BitVec.truncate_eq_setWidth, BitVec.getLsbD_or, BitVec.getLsbD_setWidth,
    BitVec.getLsbD_shiftLeft, BitVec.getLsbD_extractLsb']
  rcases Nat.lt_or_ge i 8 with h | h
  · simp [h, hi]
  · have h' : 8 + (i - 8) = i := by omega
    have h'' : i - 8 < 8 := by omega
    simp [Nat.not_lt.mpr h, hi, h', h'']
    omega

/-- Storing a 16-bit field that was read (R63, R65). -/
@[simp] theorem bytes16le_le16 (x y : Byte) : bytes16le (le16 x y) = [x, y] := by
  simp only [bytes16le, List.cons.injEq, and_true]
  constructor
  · apply BitVec.eq_of_getLsbD_eq
    intro i hi
    simp [le16, hi, show i < 16 by omega]
  · apply BitVec.eq_of_getLsbD_eq
    intro i hi
    simp only [le16, BitVec.truncate_eq_setWidth, BitVec.getLsbD_extractLsb', BitVec.getLsbD_or,
      BitVec.getLsbD_setWidth, BitVec.getLsbD_shiftLeft]
    simp [hi, show 8 + i < 16 by omega, show i < 16 by omega]

/-- Reading back a stored 32-bit field (R64). -/
@[simp] theorem le32_bytes32le (v : U32) :
    le32 (v.extractLsb' 0 8) (v.extractLsb' 8 8) (v.extractLsb' 16 8) (v.extractLsb' 24 8) = v := by
  apply BitVec.eq_of_getLsbD_eq
  intro i hi
  simp only [le32, BitVec.truncate_eq_setWidth, BitVec.getLsbD_or, BitVec.getLsbD_setWidth,
    BitVec.getLsbD_shiftLeft, BitVec.getLsbD_extractLsb']
  rcases Nat.lt_or_ge i 8 with h | h
  · simp [h, hi, show i < 16 by omega, show i < 24 by omega]
  rcases Nat.lt_or_ge i 16 with h2 | h2
  · simp [hi, h2, Nat.not_lt.mpr h, show i < 24 by omega, show 8 + (i - 8) = i by omega, show i - 8 < 8 by omega]
    omega
  rcases Nat.lt_or_ge i 24 with h3 | h3
  · simp [hi, h3, Nat.not_lt.mpr h, Nat.not_lt.mpr h2, show 16 + (i - 16) = i by omega,
      show i - 16 < 8 by omega, show ¬ i - 8 < 8 by omega]
    omega
  · simp [hi, Nat.not_lt.mpr h, Nat.not_lt.mpr h2, Nat.not_lt.mpr h3, show 24 + (i - 24) = i by omega,
      show i - 24 < 8 by omega, show ¬ i - 8 < 8 by omega, show ¬ i - 16 < 8 by omega]
    omega

@[simp] theorem byteAt_cons_zero (x : Byte) (b : Bytes) : byteAt (x :: b) 0 = x := rfl

@[simp] theorem byteAt_cons_succ (x : Byte) (b : Bytes) (i : Nat) : byteAt (x :: b) (i + 1) = byteAt b i := rfl

/-- Inside the buffer `byteAt` is the buffer's own byte. -/
theorem getElem?_eq_byteAt {b : Bytes} {i : Nat} (h : i < b.length) : b[i]? = some (byteAt b i) := by
  simp [byteAt, h]

@[simp] theorem slice_length (b : Bytes) (i j : Nat) : (slice b i j).length = min (j - i) (b.length - i) := by
  simp [slice]

end Sys2Proof.Machine
end

