-- ==== Sys2Proof/Laws/Codec.lean ====
section
/-! SUPPORT. The CRC and frame functions: how they compose, and how long their results are. -/

namespace Sys2Proof.Machine

@[simp] theorem crcFrom_nil (c : U16) : crcFrom c [] = c := rfl

@[simp] theorem crcFrom_cons (c : U16) (b : Byte) (bs : Bytes) : crcFrom c (b :: bs) = crcFrom (crcStep c b) bs := rfl

theorem crcFrom_append (c : U16) (as bs : Bytes) : crcFrom c (as ++ bs) = crcFrom (crcFrom c as) bs :=
  List.foldl_append

/-- The shift of R90 is linear over GF(2). -/
theorem crcShift_xor (c d : U16) : crcShift (c ^^^ d) = crcShift c ^^^ crcShift d := by
  have hs : (c ^^^ d) <<< 1 = (c <<< 1) ^^^ (d <<< 1) := BitVec.shiftLeft_xor_distrib ..
  have hx : POLY ^^^ POLY = 0 := by decide
  cases hc : c.getLsbD 15 <;> cases hd : d.getLsbD 15 <;>
    simp only [crcShift, BitVec.getLsbD_xor, hc, hd, hs, Bool.false_eq_true, if_true, if_false, Bool.xor_false,
      Bool.xor_true, Bool.not_true, Bool.not_false]
  · ac_rfl
  · ac_rfl
  · rw [show (c <<< 1 ^^^ POLY) ^^^ (d <<< 1 ^^^ POLY) = (c <<< 1 ^^^ d <<< 1) ^^^ (POLY ^^^ POLY) by ac_rfl, hx]
    simp

theorem crcShifts_xor (n : Nat) (c d : U16) : crcShifts n (c ^^^ d) = crcShifts n c ^^^ crcShifts n d := by
  induction n generalizing c d with
  | zero => rfl
  | succ n ih => rw [crcShifts, crcShift_xor, ih]; rfl

@[simp] theorem frameBody_length (ty : Byte) (seq : U32) (payload : Bytes) :
    (frameBody ty seq payload).length = payload.length + 8 := by
  simp [frameBody]
  omega

/-- R61. -/
@[simp] theorem encodeFrame_length (ty : Byte) (seq : U32) (payload : Bytes) :
    (encodeFrame ty seq payload).length = payload.length + 12 := by
  simp [encodeFrame]

/-- Everything `respondIfFormed` can do. -/
theorem respondIfFormed_eq_next {payload : Bytes} {r : Response} {s t : State} :
    respondIfFormed payload r s = .next t ↔ payload.length ≤ MAX_PAYLOAD ∧ t = s.respond r := by
  unfold respondIfFormed
  split <;> simp_all [eq_comm]

theorem respondIfFormed_of_le {payload : Bytes} (r : Response) (s : State) (h : payload.length ≤ MAX_PAYLOAD) :
    respondIfFormed payload r s = .next (s.respond r) :=
  respondIfFormed_eq_next.mpr ⟨h, rfl⟩

end Sys2Proof.Machine
end

