-- ==== Sys2Proof/Laws/Parser.lean ====
section
/-! SUPPORT. TAKE's building blocks: the marker search, one pass of the loop, and the loop. -/

namespace Sys2Proof.Machine

@[simp] theorem findMarker_nil : findMarker [] = none := rfl

@[simp] theorem findMarker_singleton (x : Byte) : findMarker [x] = none := rfl

theorem findMarker_cons_cons (x y : Byte) (b : Bytes) :
    findMarker (x :: y :: b) =
      if x = MAGIC0 ∧ y = MAGIC1 then some 0 else (findMarker (y :: b)).map (· + 1) := rfl

@[simp] theorem findMarker_marker (b : Bytes) : findMarker (MAGIC0 :: MAGIC1 :: b) = some 0 := by
  simp [findMarker_cons_cons]

/-- What a found marker offset says of the buffer: the two marker bytes stand there. -/
theorem drop_of_findMarker {b : Bytes} {k : Nat} (h : findMarker b = some k) :
    ∃ tail, b.drop k = MAGIC0 :: MAGIC1 :: tail := by
  induction b generalizing k with
  | nil => simp at h
  | cons x b ih =>
    cases b with
    | nil => simp at h
    | cons y b =>
      rw [findMarker_cons_cons] at h
      split at h
      · next hm =>
        obtain rfl : 0 = k := by simpa using h
        exact ⟨b, by simp [hm.1, hm.2]⟩
      · obtain ⟨j, hj, rfl⟩ := Option.map_eq_some_iff.mp h
        simpa using ih hj

/-- Everything steps 4 to 7 can do (R118 to R124). -/
theorem syncPass_cases (b : Bytes) :
    (b.length < HDR ∧ syncPass b = .needMore b) ∨
    (HDR ≤ b.length ∧ byteAt b 2 ≠ VERSION ∧ syncPass b = .restart (b.drop 2)) ∨
    (HDR ≤ b.length ∧ byteAt b 2 = VERSION ∧ b.length < HDR + declaredLength b + CRC_LEN ∧
      syncPass b = .needMore b) ∨
    (byteAt b 2 = VERSION ∧ HDR + declaredLength b + CRC_LEN ≤ b.length ∧
      syncPass b = .frame (extractFrame b (declaredLength b)) (b.drop (HDR + declaredLength b + CRC_LEN))) := by
  unfold syncPass
  by_cases h1 : b.length < HDR
  · exact .inl ⟨h1, if_pos h1⟩
  by_cases h2 : byteAt b 2 ≠ VERSION
  · exact .inr (.inl ⟨Nat.not_lt.mp h1, h2, by rw [if_neg h1, if_pos h2]⟩)
  have hv : byteAt b 2 = VERSION := not_not.mp h2
  by_cases h3 : b.length < HDR + declaredLength b + CRC_LEN
  · exact .inr (.inr (.inl ⟨Nat.not_lt.mp h1, hv, h3, by rw [if_neg h1, if_neg h2]; exact if_pos h3⟩))
  · exact .inr (.inr (.inr ⟨hv, Nat.not_lt.mp h3, by rw [if_neg h1, if_neg h2]; exact if_neg h3⟩))

/-- Everything one pass can do (R113): steps 1 and 2, or steps 4 to 7 from the leftmost marker on. -/
theorem takePass_cases (b : Bytes) :
    (b.length < 2 ∧ takePass b = .needMore b) ∨
    (2 ≤ b.length ∧ findMarker b = none ∧ takePass b = .needMore []) ∨
    (∃ k tail, 2 ≤ b.length ∧ findMarker b = some k ∧ b.drop k = MAGIC0 :: MAGIC1 :: tail ∧
      takePass b = syncPass (MAGIC0 :: MAGIC1 :: tail)) := by
  by_cases h : b.length < 2
  · exact .inl ⟨h, if_pos h⟩
  · cases hm : findMarker b with
    | none => exact .inr (.inl ⟨Nat.not_lt.mp h, rfl, by rw [takePass, if_neg h, hm]⟩)
    | some k =>
      obtain ⟨tail, ht⟩ := drop_of_findMarker hm
      exact .inr (.inr ⟨k, tail, Nat.not_lt.mp h, rfl, ht, by rw [takePass, if_neg h, hm, ← ht]⟩)

/-- A pass that restarts has dropped at least the two marker bytes (R120, R126). -/
theorem takePass_restart_length {b rest : Bytes} (h : takePass b = .restart rest) : rest.length + 2 ≤ b.length := by
  obtain ⟨_, h'⟩ | ⟨_, _, h'⟩ | ⟨k, tail, _, _, hd, h'⟩ := takePass_cases b
  · simp [h] at h'
  · simp [h] at h'
  · have hl : (MAGIC0 :: MAGIC1 :: tail).length ≤ b.length := by
      rw [← hd, List.length_drop]
      omega
    rw [h] at h'
    obtain ⟨_, e⟩ | ⟨_, _, e⟩ | ⟨_, _, _, e⟩ | ⟨_, _, e⟩ := syncPass_cases (MAGIC0 :: MAGIC1 :: tail)
    · simp [e] at h'
    · obtain rfl : rest = tail := by simpa [e] using h'
      exact hl
    · simp [e] at h'
    · simp [e] at h'

theorem takeLoop_succ (n : Nat) (b : Bytes) :
    takeLoop (n + 1) b =
      match takePass b with
      | .needMore rest => some (none, rest)
      | .frame f rest => some (some f, rest)
      | .restart rest => takeLoop n rest := rfl

/-- A loop that has ended stays as it ended when more passes are allowed. -/
theorem takeLoop_add {n : Nat} {b : Bytes} {x : Option Frame × Bytes} (h : takeLoop n b = some x) (m : Nat) :
    takeLoop (n + m) b = some x := by
  induction n generalizing b with
  | zero => simp [takeLoop] at h
  | succ n ih =>
    rw [takeLoop_succ] at h
    rw [Nat.succ_add, takeLoop_succ]
    split at h
    · exact h
    · exact h
    · exact ih h

end Sys2Proof.Machine
end

