-- ==== Sys2Proof/Laws/Exec.lean ====
section
/-! SUPPORT. One equation per command and one per kind of step: what `exec` and `step` are, cited instead of unfolding
them. -/

namespace Sys2Proof.Machine

theorem execFeed_of_room {s : State} (b : Byte) (h : s.rxBuf.length < BUF_CAP) :
    execFeed b s = .next ((s.setRxBuf (s.rxBuf ++ [b])).respond .ok) :=
  if_pos ((inReady_iff s).mpr h)

theorem execFeed_of_full {s : State} (b : Byte) (h : BUF_CAP ≤ s.rxBuf.length) :
    execFeed b s = .next (s.respond .rejected) :=
  if_neg fun h' => absurd ((inReady_iff s).mp h') (Nat.not_lt.mpr h)

/-- Everything FEED can do (R110, R111). -/
theorem execFeed_cases (b : Byte) (s : State) :
    (s.rxBuf.length < BUF_CAP ∧ execFeed b s = .next ((s.setRxBuf (s.rxBuf ++ [b])).respond .ok)) ∨
    (BUF_CAP ≤ s.rxBuf.length ∧ execFeed b s = .next (s.respond .rejected)) :=
  (Nat.lt_or_ge s.rxBuf.length BUF_CAP).imp (fun h => ⟨h, execFeed_of_room b h⟩) fun h => ⟨h, execFeed_of_full b h⟩

/-- The host's next input decides which of the three kinds of step is taken. -/
theorem step_of_idle {s : State} (h : s.inputs = []) : step s = .next s := by
  simp [step, h]

theorem step_of_command_ok {s : State} {c : PortCommand} {rest : List HostInput} {i : Instr}
    (h : s.inputs = .command c :: rest) (hd : decode c = .ok i) : step s = exec i (s.setInputs rest) := by
  simp [step, h, hd]

theorem step_of_command_error {s : State} {c : PortCommand} {rest : List HostInput} {e : DecodeError}
    (h : s.inputs = .command c :: rest) (hd : decode c = .error e) : step s = .refused (.illFormedCommand e) := by
  simp [step, h, hd]

theorem step_of_reset_input {s : State} {c : Option PortCommand} {rest : List HostInput}
    (h : s.inputs = .reset c :: rest) : step s = .next (s.resetBlock.setInputs rest) := by
  simp [step, h]

end Sys2Proof.Machine
end

