-- ==== Sys2Proof/Laws/PerInstr.lean ====
section
/-! SUPPORT. What is said of every command, one lemma per constructor: the host presents a well-formed command in a
well-formed form (30_encoding.md R82, 41_frame_codec.md R106). -/

namespace Sys2Proof.Laws.EncodingWellFormed

def Statement (i : Instr) : Prop :=
  i.wellFormed = true → (encode i).wellFormed = true

/-- The declared length of a frame command is its payload's. -/
theorem frameCommand_wellFormed (op : BitVec 4) (ty : Byte) (seq : U32) (payload : Bytes) (crc : U16)
    (h : decide (payload.length ≤ MAX_PAYLOAD) = true) : (frameCommand op ty seq payload crc).wellFormed = true := by
  have h' : payload.length ≤ 65535 := of_decide_eq_true h
  have hm : payload.length % 65536 = payload.length := Nat.mod_eq_of_lt (by omega)
  simp [PortCommand.wellFormed, frameCommand, hm]

theorem nop : Statement .nop :=
  fun _ => rfl

theorem clear : Statement .clear :=
  fun _ => rfl

theorem crcinit : Statement .crcinit :=
  fun _ => rfl

theorem crcbyte (b : Byte) : Statement (.crcbyte b) :=
  fun _ => rfl

theorem feed (b : Byte) : Statement (.feed b) :=
  fun _ => rfl

theorem take : Statement .take :=
  fun _ => rfl

theorem encode (ty : Byte) (seq : U32) (payload : Bytes) : Statement (.encode ty seq payload) :=
  frameCommand_wellFormed _ _ _ _ _

theorem fcrc (ty : Byte) (seq : U32) (payload : Bytes) : Statement (.fcrc ty seq payload) :=
  frameCommand_wellFormed _ _ _ _ _

theorem fverify (ty : Byte) (seq : U32) (payload : Bytes) (crc : U16) : Statement (.fverify ty seq payload crc) :=
  frameCommand_wellFormed _ _ _ _ _

theorem reserved9 : Statement .reserved9 :=
  fun _ => rfl

theorem reservedA : Statement .reservedA :=
  fun _ => rfl

theorem reservedB : Statement .reservedB :=
  fun _ => rfl

theorem reservedC : Statement .reservedC :=
  fun _ => rfl

theorem reservedD : Statement .reservedD :=
  fun _ => rfl

theorem reservedE : Statement .reservedE :=
  fun _ => rfl

theorem reservedF : Statement .reservedF :=
  fun _ => rfl

end Sys2Proof.Laws.EncodingWellFormed
end

