-- ==== Sys2Proof/Laws/Run.lean ====
section
/-! SUPPORT. How the host's `run` and the sequence of commands unfold, one step at a time. -/

namespace Sys2Proof.Machine

theorem run_of_next {M : Host.Core} {s t : M.State} (n : Nat) (h : M.step s = .next t) : M.run (n + 1) s = M.run n t := by
  simp [Host.Core.run, h]

theorem run_of_refused {M : Host.Core} {s : M.State} {r : M.Refusal} (n : Nat) (h : M.step s = .refused r) :
    M.run (n + 1) s = .refused r := by
  simp [Host.Core.run, h]

theorem runInstrs_of_next {i : Instr} {s t : State} (is : List Instr) (h : exec i s = .next t) :
    runInstrs (i :: is) s = runInstrs is t := by
  rw [runInstrs, h]

theorem runInstrs_of_refused {i : Instr} {s : State} {r : Refusal} (is : List Instr) (h : exec i s = .refused r) :
    runInstrs (i :: is) s = .refused r := by
  rw [runInstrs, h]

/-- A run of commands that ends has run its first command and then the rest. -/
theorem runInstrs_cons_eq_next {i : Instr} {is : List Instr} {s u : State} :
    runInstrs (i :: is) s = .next u ↔ ∃ t, exec i s = .next t ∧ runInstrs is t = .next u := by
  rw [runInstrs]
  cases exec i s <;> simp

theorem runInstrs_append_of_next {is : List Instr} {s t : State} (js : List Instr) (h : runInstrs is s = .next t) :
    runInstrs (is ++ js) s = runInstrs js t := by
  induction is generalizing s with
  | nil =>
    obtain rfl : s = t := by simpa [runInstrs] using h
    rfl
  | cons i is ih =>
    obtain ⟨u, hi, hu⟩ := runInstrs_cons_eq_next.mp h
    rw [List.cons_append, runInstrs_of_next _ hi, ih hu]

/-- TAKE answers, whatever the buffer (R125). -/
theorem exec_take (s : State) :
    exec .take s = .next ((s.setRxBuf (takeBuf s.rxBuf).2).respond (takeResponse (takeBuf s.rxBuf).1)) := rfl

end Sys2Proof.Machine
end

