-- ==== Sys2Proof/Machine/Asm.lean ====
section
/-! DEFINITION. The command syntax of 30_encoding.md R86 (D25: notation only): a command as one line of text, and a line read
back. The reserved opcodes have no syntax in R86. Numbers are read in hexadecimal; R86's decimal operands 'where plainly
marked' are left out, since R86 gives no mark (log 14). -/

namespace Sys2Proof.Machine

/-- A hexadecimal digit of a value below 16. -/
def hexDigit (n : Nat) : Char :=
  ['0', '1', '2', '3', '4', '5', '6', '7', '8', '9', 'A', 'B', 'C', 'D', 'E', 'F'].getD n '0'

/-- The last `k` hexadecimal digits of `n`. -/
def hexDigits : Nat → Nat → List Char
  | 0, _ => []
  | k + 1, n => hexDigits k (n / 16) ++ [hexDigit (n % 16)]

/-- `0x` and `k` digits (R86). -/
def hexText (k n : Nat) : List Char :=
  '0' :: 'x' :: hexDigits k n

/-- A bracketed list of hexadecimal bytes; `[]` is the empty payload (R86). -/
def payloadText (bs : Bytes) : List Char :=
  '[' :: ((bs.map fun b => hexDigits 2 b.toNat).intersperse [' ']).flatten ++ [']']

/-- The named operands of a frame command (R86). -/
def frameText (ty : Byte) (seq : U32) (payload : Bytes) : List Char :=
  "ty=".toList ++ hexText 2 ty.toNat ++ ", seq=".toList ++ hexText 8 seq.toNat ++
    ", payload=".toList ++ payloadText payload

/-- A command in the syntax of R86, mnemonics padded to eight columns as its listing shows them; none for a reserved
opcode. -/
def asmText : Instr → Option (List Char)
  | .nop => some "NOP".toList
  | .clear => some "CLEAR".toList
  | .crcinit => some "CRCINIT".toList
  | .crcbyte b => some ("CRCBYTE ".toList ++ hexText 2 b.toNat)
  | .feed b => some ("FEED    ".toList ++ hexText 2 b.toNat)
  | .take => some "TAKE".toList
  | .encode ty seq payload => some ("ENCODE  ".toList ++ frameText ty seq payload)
  | .fcrc ty seq payload => some ("FCRC    ".toList ++ frameText ty seq payload)
  | .fverify ty seq payload crc =>
    some ("FVERIFY ".toList ++ frameText ty seq payload ++ ", crc=".toList ++ hexText 4 crc.toNat)
  | .reserved9 => none
  | .reservedA => none
  | .reservedB => none
  | .reservedC => none
  | .reservedD => none
  | .reservedE => none
  | .reservedF => none

/-- The value of a hexadecimal digit, upper or lower case. -/
def hexValue (c : Char) : Option Nat :=
  if '0'.toNat ≤ c.toNat ∧ c.toNat ≤ '9'.toNat then some (c.toNat - '0'.toNat)
  else if 'A'.toNat ≤ c.toNat ∧ c.toNat ≤ 'F'.toNat then some (c.toNat - 'A'.toNat + 10)
  else if 'a'.toNat ≤ c.toNat ∧ c.toNat ≤ 'f'.toNat then some (c.toNat - 'a'.toNat + 10)
  else none

/-- A nonempty run of hexadecimal digits, most significant first. -/
def readDigits : List Char → Option Nat
  | [] => none
  | cs => cs.foldl (fun v c => do return (← v) * 16 + (← hexValue c)) (some 0)

/-- A hexadecimal operand `0x..` that fits in `w` bits. -/
def readHex (w : Nat) : List Char → Option (BitVec w)
  | '0' :: 'x' :: cs => do
    let n ← readDigits cs
    if n < 2 ^ w then some (BitVec.ofNat w n) else none
  | _ => none

/-- Text cut at a separator. -/
def cutAt (sep : Char) : List Char → List (List Char)
  | [] => [[]]
  | c :: cs =>
    if c = sep then [] :: cutAt sep cs
    else
      match cutAt sep cs with
      | [] => [[c]]
      | w :: ws => (c :: w) :: ws

/-- Text without the blanks around it. -/
def trimText (cs : List Char) : List Char :=
  ((cs.dropWhile (· = ' ')).reverse.dropWhile (· = ' ')).reverse

/-- One byte of a bracketed payload: two hexadecimal digits. -/
def readByte : List Char → Option Byte
  | [a, b] => do return BitVec.ofNat 8 ((← hexValue a) * 16 + (← hexValue b))
  | _ => none

/-- A bracketed payload (R86). -/
def readPayload : List Char → Option Bytes
  | '[' :: cs =>
    match cs.reverse with
    | ']' :: inner =>
      ((cutAt ' ' inner.reverse).filter (· ≠ [])).mapM readByte
    | _ => none
  | _ => none

/-- A named operand `name=value`: the text of its value. -/
def readNamed (name cs : List Char) : Option (List Char) :=
  match cutAt '=' cs with
  | [n, v] => if trimText n = name then some (trimText v) else none
  | _ => none

/-- One line of R86's syntax as a command: a `;` starts a comment, operands are separated by commas. -/
def readAsm (line : List Char) : Option Instr :=
  let text := trimText (line.takeWhile (· ≠ ';'))
  let mnemonic := text.takeWhile (· ≠ ' ')
  match (cutAt ',' (text.dropWhile (· ≠ ' '))).map trimText with
  | [[]] =>
    if mnemonic = "NOP".toList then some .nop
    else if mnemonic = "CLEAR".toList then some .clear
    else if mnemonic = "CRCINIT".toList then some .crcinit
    else if mnemonic = "TAKE".toList then some .take
    else none
  | [b] =>
    if mnemonic = "CRCBYTE".toList then (readHex 8 b).map .crcbyte
    else if mnemonic = "FEED".toList then (readHex 8 b).map .feed
    else none
  | [t, q, p] => do
    let ty ← readHex 8 (← readNamed "ty".toList t)
    let seq ← readHex 32 (← readNamed "seq".toList q)
    let payload ← readPayload (← readNamed "payload".toList p)
    if mnemonic = "ENCODE".toList then some (.encode ty seq payload)
    else if mnemonic = "FCRC".toList then some (.fcrc ty seq payload)
    else none
  | [t, q, p, k] => do
    let ty ← readHex 8 (← readNamed "ty".toList t)
    let seq ← readHex 32 (← readNamed "seq".toList q)
    let payload ← readPayload (← readNamed "payload".toList p)
    let crc ← readHex 16 (← readNamed "crc".toList k)
    if mnemonic = "FVERIFY".toList then some (.fverify ty seq payload crc) else none
  | _ => none

end Sys2Proof.Machine
end

