-- ==== Sys2Proof/Tests/Slice0.lean ====
section
/-! SUPPORT. The model's own tests: small closed facts whose expected values come from spec/ (the vectors V-* of
95_test_vectors.md and the rules' examples), and for every statement with hypotheses a concrete case that meets them. -/

namespace Sys2Proof.Tests

open Sys2Proof.Machine

/-! ## Helpers -/

/-- A block with nothing presented and nothing returned yet. -/
def block (crc : U16) (rx : Bytes) : State :=
  { crcReg := crc, rxBuf := rx, inputs := [], responses := [] }

/-- A command whose operand fields are all given. -/
def port (op : BitVec 4) (b ty : Byte) (seq : U32) (plen : U16) (payload : Bytes) (crc : U16) : PortCommand :=
  { op := op, b := b, ty := ty, seq := seq, plen := plen, payload := payload, crc := crc }

/-- What one command answers, and the buffer and register it leaves. -/
def answer (i : Instr) (s : State) : Option (Option Response × U16 × Bytes) :=
  match exec i s with
  | .next t => some (t.lastResponse, t.crcReg, t.rxBuf)
  | _ => none

/-- F0 of 95_test_vectors.md. -/
def F0 : Bytes := [0x55, 0xAA, 0x01, 0x03, 0x00, 0x00, 0x00, 0x00, 0x00, 0x00, 0x6F, 0xAE]

/-- F1 of 95_test_vectors.md. -/
def F1 : Bytes := [0x55, 0xAA, 0x01, 0x03, 0x01, 0x00, 0x00, 0x00, 0x02, 0x00, 0xDE, 0xAD, 0xEC, 0x5B]

/-- A payload of 65536 bytes is one too long. -/
theorem longer_refused : decide ((List.replicate 65536 (0 : Byte)).length ≤ MAX_PAYLOAD) = false := by
  rw [List.length_replicate]
  decide

/-- A payload of 65535 bytes is not. -/
theorem longest_allowed : decide ((List.replicate 65535 (0 : Byte)).length ≤ MAX_PAYLOAD) = true := by
  rw [List.length_replicate]
  decide

/-! ## Well-formedness: each check refuses an ill-formed command (R82, R106) -/

theorem test_wellFormed_refuses_long_encode (ty : Byte) (seq : U32) :
    (Instr.encode ty seq (List.replicate 65536 0)).wellFormed = false :=
  longer_refused

theorem test_wellFormed_refuses_long_fcrc (ty : Byte) (seq : U32) :
    (Instr.fcrc ty seq (List.replicate 65536 0)).wellFormed = false :=
  longer_refused

theorem test_wellFormed_refuses_long_fverify (ty : Byte) (seq : U32) (crc : U16) :
    (Instr.fverify ty seq (List.replicate 65536 0) crc).wellFormed = false :=
  longer_refused

theorem test_wellFormed_refuses_wrong_plen :
    (port 0x6 0 3 1 3 [0xDE, 0xAD] 0).wellFormed = false ∧ (port 0x7 0 3 1 0 [0xDE, 0xAD] 0).wellFormed = false ∧
    (port 0x8 0 3 1 1 [0xDE, 0xAD] 0x5BEC).wellFormed = false := by decide

/-! ## Decoding: every row, from words written out from R81, R82 and the programs P1 to P3; `0b` digits are op[3:0] -/

theorem test_decode_bare_commands :
    (decode (port 0b0000 0 0 0 0 [] 0)).toOption = some .nop ∧
    (decode (port 0b0001 0 0 0 0 [] 0)).toOption = some .clear ∧
    (decode (port 0b0010 0 0 0 0 [] 0)).toOption = some .crcinit ∧
    (decode (port 0b0101 0 0 0 0 [] 0)).toOption = some .take := by decide

theorem test_decode_byte_commands :
    (decode (port 0b0011 0x31 0 0 0 [] 0)).toOption = some (.crcbyte 0x31) ∧
    (decode (port 0b0100 0x55 0 0 0 [] 0)).toOption = some (.feed 0x55) := by decide

theorem test_decode_frame_commands :
    (decode (port 0b0110 0 0x03 0x00000001 2 [0xDE, 0xAD] 0)).toOption = some (.encode 0x03 1 [0xDE, 0xAD]) ∧
    (decode (port 0b0111 0 0x03 0x00000001 2 [0xDE, 0xAD] 0)).toOption = some (.fcrc 0x03 1 [0xDE, 0xAD]) ∧
    (decode (port 0b1000 0 0x03 0x00000001 2 [0xDE, 0xAD] 0x5BEC)).toOption =
      some (.fverify 0x03 1 [0xDE, 0xAD] 0x5BEC) := by decide

theorem test_decode_reserved :
    (decode (port 0b1001 0 0 0 0 [] 0)).toOption = some .reserved9 ∧
    (decode (port 0b1010 0 0 0 0 [] 0)).toOption = some .reservedA ∧
    (decode (port 0b1011 0 0 0 0 [] 0)).toOption = some .reservedB ∧
    (decode (port 0b1100 0 0 0 0 [] 0)).toOption = some .reservedC ∧
    (decode (port 0b1101 0 0 0 0 [] 0)).toOption = some .reservedD ∧
    (decode (port 0b1110 0 0 0 0 [] 0)).toOption = some .reservedE ∧
    (decode (port 0b1111 0 0 0 0 [] 0)).toOption = some .reservedF := by decide

/-- Unused fields are ignored (R80): a NOP, a CLEAR and a reserved opcode with every operand field set, `plen` wrong. -/
theorem test_decode_ignores_unused_fields :
    (decode (port 0x0 0xFF 0xFF 0xFFFFFFFF 0xFFFF [1] 0xFFFF)).toOption = some .nop ∧
    (decode (port 0x1 0xFF 0xFF 0xFFFFFFFF 0xFFFF [1] 0xFFFF)).toOption = some .clear ∧
    (decode (port 0xC 0xFF 0xFF 0xFFFFFFFF 0xFFFF [1] 0xFFFF)).toOption = some .reservedC := by decide

theorem test_decode_refuses_wrong_plen :
    (decode (port 0x6 0 3 1 3 [0xDE, 0xAD] 0)).toOption = none ∧
    (decode (port 0x8 0 3 1 0 [0xDE, 0xAD] 0)).toOption = none := by decide

theorem test_table_words :
    decodeTableWord 8 0x0 = some .nop ∧ decodeTableWord 8 0x3 = some (.crcbyte 0) ∧
    decodeTableWord 8 0x6 = some (.encode 0 0 []) ∧ decodeTableWord 8 0x8 = some (.fverify 0 0 [] 0) ∧
    decodeTableWord 8 0x9 = some .reserved9 := by decide

/-- Every word of the table runs as the first command after reset. -/
theorem test_table_words_run_from_reset :
    ∀ w : Fin 16, (match step (State.reset.withFetchWord 8 w.val) with | .next _ => true | _ => false) = true := by
  decide

/-! ## The CRC unit -/

/-- V-STEP-1 to V-STEP-5. -/
theorem test_crc_step :
    crcStep 0x0000 0x00 = 0x0000 ∧ crcStep 0x0000 0x01 = 0x1021 ∧ crcStep 0xFFFF 0xFF = 0xFF00 ∧
    crcStep 0x8000 0x00 = 0x9188 ∧ crcStep 0x0080 0x00 = 0x8000 := by decide +kernel

/-- V-CRC-1, V-CRC-2, V-CRC-3, V-CRC-9. -/
theorem test_crc16 :
    crc16 [] = 0xFFFF ∧ crc16 [0x00] = 0xE1F0 ∧
    crc16 [0x31, 0x32, 0x33, 0x34, 0x35, 0x36, 0x37, 0x38, 0x39] = 0x29B1 ∧ crc16 [0xFF, 0xFF] = 0x0000 := by
  decide +kernel

/-- V-CCMD-1. -/
theorem test_crcinit : answer .crcinit (block 0x1234 [0x55]) = some (some .ok, 0xFFFF, [0x55]) := by decide

/-- V-CCMD-3. -/
theorem test_crcbyte : answer (.crcbyte 0x31) (block 0xFFFF []) = some (some .ok, 0xC782, []) := by decide +kernel

/-! ## The frame serializer -/

/-- V-ENC-2. -/
theorem test_encode_f1 :
    answer (.encode 0x03 0x00000001 [0xDE, 0xAD]) (block 7 [1]) = some (some (.bytes F1), 7, [1]) := by decide +kernel

/-- V-ENC-3: the sequence number is little-endian. -/
theorem test_encode_sequence_little_endian :
    answer (.encode 0x10 0x12345678 [0x55]) (block 7 []) =
      some (some (.bytes [0x55, 0xAA, 0x01, 0x10, 0x78, 0x56, 0x34, 0x12, 0x01, 0x00, 0x55, 0x1B, 0x6A]), 7, []) := by
  decide +kernel

/-- V-FCRC-1. -/
theorem test_fcrc : answer (.fcrc 0x03 0x00000001 [0xDE, 0xAD]) (block 7 [1]) = some (some (.crc 0x5BEC), 7, [1]) := by
  decide +kernel

/-- V-FVER-1. -/
theorem test_fverify_right :
    answer (.fverify 0x03 0x00000001 [0xDE, 0xAD] 0x5BEC) (block 7 [1]) = some (some (.verdict true), 7, [1]) := by
  decide +kernel

/-- V-FVER-3: the bytes of the CRC swapped. -/
theorem test_fverify_swapped :
    answer (.fverify 0x03 0x00000001 [0xDE, 0xAD] 0xEC5B) (block 7 [1]) = some (some (.verdict false), 7, [1]) := by
  decide +kernel

/-! ## The stream synchronizer -/

/-- V-CTL-1 and V-CCMD-5. -/
theorem test_feed :
    answer (.feed 0xAA) (block 0xFFFF [0x55]) = some (some .ok, 0xFFFF, [0x55, 0xAA]) := by decide

/-- V-CTL-2, at any capacity: a full buffer rejects the byte and keeps everything. -/
theorem test_feed_full :
    answer (.feed 0x22) (block 7 (List.replicate BUF_CAP 0x11)) =
      some (some .rejected, 7, List.replicate BUF_CAP 0x11) := by
  have h : exec (.feed 0x22) (block 7 (List.replicate BUF_CAP 0x11)) =
      .next ((block 7 (List.replicate BUF_CAP 0x11)).respond .rejected) := execFeed_of_full _ (by simp [block])
  rw [answer, h]
  simp [block]

/-- V-CTL-5. -/
theorem test_clear :
    answer .clear (block 0x29B1 [0x55, 0xAA, 0x01, 0x03]) = some (some .ok, 0x29B1, []) := by decide

/-- V-PAR-2, 4, 6, 7, 8, 10 and 20: no frame yet. -/
theorem test_take_needs_more :
    [[0x55], [0x12, 0x55], [0x00, 0x11, 0x55, 0xAA, 0x01], [0x55, 0xAA, 0x02], [0x55, 0xAA, 0x02, 0x03, 0, 0, 0, 0, 0, 0],
        F0.dropLast, F1.set 9 0x01 ++ F0].map (fun b => answer .take (block 7 b)) =
      [[0x55], [], [0x55, 0xAA, 0x01], [0x55, 0xAA, 0x02], [], F0.dropLast, F1.set 9 0x01 ++ F0].map
        (fun b => some (some .needMore, 7, b)) := by decide +kernel

/-- V-PAR-12, 14, 15, 16 and 19: a frame with a wrong CRC, after noise and a false marker, after a doubled marker, before
another frame, and with the marker inside its payload. -/
theorem test_take_frames :
    [F1.set 13 0x5A, [0x00, 0x55, 0xAA, 0x07, 0x11] ++ F1, [0x55, 0xAA] ++ F0, F0 ++ F1,
        [0x55, 0xAA, 0x01, 0, 0, 0, 0, 0, 0x02, 0, 0x55, 0xAA, 0xFE, 0x86]].map (fun b => answer .take (block 7 b)) =
      [some (some (.frame ⟨0x03, 1, [0xDE, 0xAD], false⟩), 7, []),
        some (some (.frame ⟨0x03, 1, [0xDE, 0xAD], true⟩), 7, []), some (some (.frame ⟨0x03, 0, [], true⟩), 7, []),
        some (some (.frame ⟨0x03, 0, [], true⟩), 7, F1), some (some (.frame ⟨0x00, 0, [0x55, 0xAA], true⟩), 7, [])] := by
  decide +kernel

/-! ## Control, reset, the port -/

/-- V-CTL-6. -/
theorem test_nop : answer .nop (block 0x29B1 [0x55]) = some (some .ok, 0x29B1, [0x55]) := by decide

/-- V-CTL-7. -/
theorem test_reserved :
    ∀ i ∈ [Instr.reserved9, .reservedA, .reservedB, .reservedC, .reservedD, .reservedE, .reservedF],
      answer i (block 7 [0x55]) = some (some .illegal, 7, [0x55]) := by decide

/-- V-CTL-8, with a command presented together with reset (R171). -/
theorem test_reset_input :
    step { block 0x1234 [0x55, 0xAA] with inputs := [.reset (some (port 0x4 0x22 0 0 0 [] 0)), .reset none] } =
      .next { block 0xFFFF [] with inputs := [.reset none] } := rfl

/-- R106: an ill-formed command is refused at the port. -/
theorem test_step_refuses_wrong_plen :
    step { block 7 [] with inputs := [.command (port 0x6 0 3 1 3 [0xDE, 0xAD] 0)] } =
      .refused (.illFormedCommand .payloadLengthMismatch) := rfl

/-- R30: the status outputs after reset. -/
theorem test_status_after_reset :
    crcOut State.reset = 0xFFFF ∧ rxLevel State.reset = 0 ∧ inReady State.reset = true := by decide

/-! ## The syntax of R86 -/

theorem test_asm_text :
    asmText (.fverify 0x03 1 [0xDE, 0xAD] 0x5BEC) =
      some "FVERIFY ty=0x03, seq=0x00000001, payload=[DE AD], crc=0x5BEC".toList ∧
    asmText (.feed 0x55) = some "FEED    0x55".toList ∧ asmText .crcinit = some "CRCINIT".toList := by decide +kernel

theorem test_asm_read :
    readAsm "ENCODE  ty=0x03, seq=0x00000001, payload=[DE AD]   ; F1".toList = some (.encode 0x03 1 [0xDE, 0xAD]) ∧
    readAsm "FCRC ty=0x03, seq=0x00000000, payload=[]".toList = some (.fcrc 0x03 0 []) ∧
    readAsm "CRCBYTE 0x31".toList = some (.crcbyte 0x31) ∧ readAsm "TAKE".toList = some .take ∧
    readAsm "FEED 0x155".toList = none := by decide +kernel

/-! ## Witnesses: states and operands that meet the statements' hypotheses -/

/-- DecodeInvertsEncode, EveryCommandCompletesWithOneResponse, EncodeResult, FcrcResult, FverifyResult, FrameLayout: the
longest payload is well-formed. -/
theorem witness_longest_payload :
    (Instr.encode 0 0 (List.replicate 65535 0)).wellFormed = true ∧
    (Instr.fcrc 0 0 (List.replicate 65535 0)).wellFormed = true ∧
    (Instr.fverify 0 0 (List.replicate 65535 0) 0).wellFormed = true ∧
    (List.replicate 65535 (0 : Byte)).length ≤ 65535 :=
  ⟨longest_allowed, longest_allowed, longest_allowed, of_decide_eq_true longest_allowed⟩

/-- DecodedOperandsAreThePortFields: one command for each clause. -/
theorem witness_decoded_operands :
    (∃ i, decode (port 0x3 1 0 0 0 [] 0) = .ok i) ∧ (∃ i, decode (port 0x4 1 0 0 0 [] 0) = .ok i) ∧
    (∃ i, decode (port 0x6 0 1 2 1 [9] 0) = .ok i ∧ opHasPayload 0x6 = true) ∧
    (∃ i, decode (port 0x7 0 1 2 1 [9] 0) = .ok i ∧ opHasPayload 0x7 = true) ∧
    (∃ i, decode (port 0x8 0 1 2 1 [9] 7) = .ok i ∧ opHasPayload 0x8 = true) :=
  ⟨⟨.crcbyte 1, rfl⟩, ⟨.feed 1, rfl⟩, ⟨.encode 1 2 [9], rfl, rfl⟩, ⟨.fcrc 1 2 [9], rfl, rfl⟩,
    ⟨.fverify 1 2 [9] 7, rfl, rfl⟩⟩

/-- UnusedOperandFieldsAreIgnored: two commands that differ in an unused field. -/
theorem witness_unused_fields :
    (port 0x3 1 0 0 0 [] 0).op = (port 0x3 1 5 6 7 [8] 9).op ∧ (port 0x3 1 0 0 0 [] 0).b = (port 0x3 1 5 6 7 [8] 9).b ∧
    opHasPayload (port 0x3 1 0 0 0 [] 0).op = false ∧ (port 0x3 1 0 0 0 [] 0).op ≠ 0x8 ∧
    port 0x3 1 0 0 0 [] 0 ≠ port 0x3 1 5 6 7 [8] 9 := by decide

/-- OpcodeMapRows. -/
theorem witness_opcode_rows : (2 : U16).toNat = ([0xDE, 0xAD] : Bytes).length := by decide

/-- StepRunsTheDecodedCommand, both clauses. -/
theorem witness_step_runs :
    ({ block 7 [] with inputs := [.command (port 0x4 1 0 0 0 [] 0)] } : State).inputs =
      .command (port 0x4 1 0 0 0 [] 0) :: [] ∧
    decode (port 0x4 1 0 0 0 [] 0) = .ok (.feed 1) ∧ (block 7 []).inputs = [] :=
  ⟨rfl, rfl, rfl⟩

/-- IllFormedFrameCommandIsRefused, both clauses. -/
theorem witness_ill_formed :
    opHasPayload (port 0x6 0 3 1 3 [0xDE, 0xAD] 0).op = true ∧
    (port 0x6 0 3 1 3 [0xDE, 0xAD] 0).plen.toNat ≠ (port 0x6 0 3 1 3 [0xDE, 0xAD] 0).payload.length ∧
    65535 < (List.replicate 65536 (0 : Byte)).length :=
  ⟨by decide, by decide, Nat.lt_of_not_le (of_decide_eq_false longer_refused)⟩

/-- ResetInputResetsTheBlock, and the reset clause of RxBufWriters. -/
theorem witness_reset_input :
    ∃ t, ({ block 7 [1] with inputs := [.reset none] } : State).inputs = .reset none :: [] ∧
      step { block 7 [1] with inputs := [.reset none] } = .next t :=
  ⟨_, rfl, rfl⟩

/-- PresentedCommandsRunInOrder. -/
theorem witness_presented :
    (∀ i ∈ [Instr.feed 1, .take], i.wellFormed = true) ∧
    ({ block 7 [] with inputs := presented [.feed 1, .take] ++ [] } : State).inputs =
      presented [.feed 1, .take] ++ [] := by decide

/-- ResponsesByCommand, OnlyCrcCommandsUseCrcReg, RxBufWriters, HostFaultStaysOnRecord: commands of each clause that answer
a next state. -/
theorem witness_commands_answer :
    ∀ i ∈ [Instr.nop, .clear, .crcinit, .crcbyte 1, .feed 1, .take, .encode 1 2 [3], .fcrc 1 2 [3], .fverify 1 2 [3] 4,
      .reserved9, .reservedA, .reservedB, .reservedC, .reservedD, .reservedE, .reservedF],
      (answer i (block 7 F0)).isSome = true := by decide

/-- RxBufIsFirstInFirstOut, OutputStreamIsTheEncodedFrames: a run of commands that ends. -/
theorem witness_run :
    ∃ t, runInstrs [.feed 1, .take, .encode 1 2 []] (block 7 []) = .next t :=
  ⟨_, rfl⟩

/-- IncrementalCrcIsTheFunction. -/
theorem witness_incremental_crc :
    Instr.crcinit ∉ [Instr.crcbyte 1, .feed 2, .crcbyte 3] ∧
    ∃ t, runInstrs [.crcinit, .crcbyte 1, .feed 2, .crcbyte 3] (block 7 []) = .next t :=
  ⟨by decide, _, rfl⟩

/-- StepKeepsTheInvariant, and the capacity clause of StatusOutputs and RejectedByteIsDeliveredAfterTake. -/
theorem witness_invariant :
    ∃ t, ({ block 7 [1] with inputs := [.command (port 0x4 1 0 0 0 [] 0)] } : State).Inv ∧
      step { block 7 [1] with inputs := [.command (port 0x4 1 0 0 0 [] 0)] } = .next t := by
  refine ⟨_, ⟨?_, by simp [block]⟩, rfl⟩
  exact Nat.le_trans (by simp [block]) MAX_FRAME_le_BUF_CAP

/-- HostFaultStaysOnRecord, second clause. -/
theorem witness_host_fault :
    ∃ t, ({ block 7 [] with responses := [.illegal] } : State).hostFaulted = true ∧
      step { block 7 [] with responses := [.illegal] } = .next t :=
  ⟨_, by decide, rfl⟩

/-- CrcIsAffine, SingleBitErrorChangesTheCrc (both ends of the bit's range). -/
theorem witness_crc_errors :
    ([1, 2] : Bytes).length = ([3, 4] : Bytes).length ∧ 1 < ([1, 2] : Bytes).length ∧ 0 < 8 ∧ 7 < 8 := by decide

/-- FramesAreUniquelyDecodable: equal streams. -/
theorem witness_equal_streams : encodeFrame 3 0 [] ++ [1] = encodeFrame 3 0 [] ++ ([1] : Bytes) := rfl

/-- FeedResult, both clauses, and TakeOnAFullBufferMakesRoom: an empty and a full buffer. -/
theorem witness_room_and_full :
    (block 7 []).rxBuf.length < BUF_CAP ∧ ¬ (block 7 (List.replicate BUF_CAP 0x11)).rxBuf.length < BUF_CAP ∧
    (block 7 (List.replicate BUF_CAP 0x11)).rxBuf.length = BUF_CAP := by
  have h := MAX_FRAME_le_BUF_CAP
  refine ⟨?_, ?_, ?_⟩ <;> simp [block]
  omega

/-- TakeWithoutAMarker: one byte, and two bytes without a marker. -/
theorem witness_no_marker :
    (block 7 [0x55]).rxBuf.length < 2 ∧ 2 ≤ (block 7 [0x12, 0x55]).rxBuf.length ∧
    ∀ k, ¬ MarkerAt (block 7 [0x12, 0x55]).rxBuf k := by
  refine ⟨by decide, by decide, fun k => ?_⟩
  match k with
  | 0 => simp [MarkerAt, block, MAGIC0]
  | 1 => simp [MarkerAt, block]
  | k + 2 => simp [MarkerAt, block]

/-- TakeDiscardsBytesBeforeTheMarker, MarkerSearchIsLeftmost: a marker at offset 1, none before it, and a second one 2 bytes
later. -/
theorem witness_leftmost_marker :
    MarkerAt [0x13, 0x55, 0xAA, 0x55, 0xAA] 1 ∧ MarkerAt [0x13, 0x55, 0xAA, 0x55, 0xAA] 3 ∧
    ∀ j, j < 1 → ¬ MarkerAt [0x13, 0x55, 0xAA, 0x55, 0xAA] j := by
  refine ⟨by decide, by decide, fun j hj => ?_⟩
  obtain rfl : j = 0 := by omega
  decide

/-- TakeWaitsForACompleteFrame: 9 bytes, and 11 bytes of a 12-byte frame. -/
theorem witness_waiting :
    (F0.take 9).length < 10 ∧ 10 ≤ (F0.take 11).length ∧ byteAt (F0.take 11) 2 = 0x01 ∧
    (F0.take 11).length < 12 + (le16 (byteAt (F0.take 11) 8) (byteAt (F0.take 11) 9)).toNat := by decide

/-- TakeSkipsAWrongVersion: 10 bytes with version 2. -/
theorem witness_wrong_version :
    10 ≤ ([0x55, 0xAA, 0x02, 3, 0, 0, 0, 0, 0, 0] : Bytes).length ∧ (0x02 : Byte) ≠ 0x01 := by decide

/-- TakeReturnsACompleteFrame: F1 and a following byte. -/
theorem witness_complete_frame :
    ([0xDE, 0xAD] : Bytes).length = (le16 0x02 0x00).toNat ∧
    F1 ++ [0x13] = [0x55, 0xAA, 0x01, 0x03, 0x01, 0, 0, 0, 0x02, 0] ++ [0xDE, 0xAD] ++ [0xEC, 0x5B] ++ [0x13] := by decide

/-- TakeLoopEnds: a pass that restarts. -/
theorem witness_restart :
    takePass [0x55, 0xAA, 0x02, 3, 0, 0, 0, 0, 0, 0] = .restart [0x02, 3, 0, 0, 0, 0, 0, 0] := by decide

/-- TakenFrameWasOnTheWire, NeedMoreIsStable: TAKE answers, here with NEED_MORE. -/
theorem witness_take_needs_more :
    ∃ t, exec .take (block 7 [0x55]) = .next t ∧ t.lastResponse = some .needMore :=
  ⟨_, rfl, by decide⟩

/-- EncodedFrameRoundTrip: the bytes of F0, with a TAKE after the second. -/
theorem witness_round_trip :
    fedBytes (([.feed 0x55, .feed 0xAA, .take] ++ ((F0.drop 2).dropLast.map Instr.feed)) ++ [.feed 0xAE]) =
      encodeFrame 0x03 0 [] ∧ (block 7 []).rxBuf = [] := by decide +kernel

/-- CompleteFramesSurviveAnyChunking: F0 in two chunks, one frame with a CRC field of its own. -/
theorem witness_chunks :
    ([F0.take 1, F0.drop 1] : List Bytes).flatten = anyFrame 0x03 0 [] 0xAE6F ∧
    ([F0.take 1, F0.drop 1] : List Bytes).flatten.length ≤ BUF_CAP :=
  ⟨by decide +kernel, Nat.le_trans (by decide) MAX_FRAME_le_BUF_CAP⟩

/-- OnlyASplitMarkerMakesChunkingDiffer: a stream of two bytes that is no such case. -/
theorem witness_no_split_marker : ¬ bytewiseLosesMarker [] [0x55, 0xAA] ∧ ([0x55, 0xAA] : Bytes).length ≤ BUF_CAP := by
  refine ⟨?_, Nat.le_trans (by decide) MAX_FRAME_le_BUF_CAP⟩
  rintro (h | h | h)
  · exact absurd (show ([0x55] : Bytes) = [] from h.1) (by decide)
  · exact absurd (show ([0x55, 0xAA] : Bytes) = [] from h.1) (by decide)
  · exact h

/-- OddNoiseLosesTheMarkerBytewise. -/
theorem witness_odd_noise : ([0x11] : Bytes).length % 2 = 1 ∧ ∀ k, ¬ MarkerAt ([0x11] : Bytes) k := by
  refine ⟨by decide, fun k => ?_⟩
  match k with
  | 0 => simp [MarkerAt]
  | k + 1 => simp [MarkerAt]

/-- FalseMarkersInNoiseAreSkipped: P3's noise, whose marker at offset 1 is followed by 0x07. -/
theorem witness_false_marker :
    (∀ k, k < 5 → MarkerAt ([0x00, 0x55, 0xAA, 0x07, 0x11] ++ anyFrame 0x03 0 [] 0xAE6F) k →
      ([0x00, 0x55, 0xAA, 0x07, 0x11] ++ anyFrame 0x03 0 [] 0xAE6F)[k + 2]? ≠ some VERSION) ∧
    MarkerAt ([0x00, 0x55, 0xAA, 0x07, 0x11] ++ anyFrame 0x03 0 [] 0xAE6F) 1 ∧
    ([0x00, 0x55, 0xAA, 0x07, 0x11] ++ anyFrame 0x03 0 [] 0xAE6F).length ≤ BUF_CAP := by
  refine ⟨?_, by decide, Nat.le_trans (by decide) MAX_FRAME_le_BUF_CAP⟩
  intro k hk
  match k, hk with
  | 0, _ => decide
  | 1, _ => decide
  | 2, _ => decide
  | 3, _ => decide
  | 4, _ => decide

/-- The three statements on single-bit errors: offsets at the ends of every clause's range, on F1's fields. -/
theorem witness_single_bit :
    (3 ≤ 3 ∧ 3 ≤ 7 ∨ 10 ≤ 3 ∧ 3 < 12 + ([0xDE, 0xAD] : Bytes).length) ∧
    (3 ≤ 7 ∧ 7 ≤ 7 ∨ 10 ≤ 7 ∧ 7 < 12 + ([0xDE, 0xAD] : Bytes).length) ∧
    (3 ≤ 10 ∧ 10 ≤ 7 ∨ 10 ≤ 10 ∧ 10 < 12 + ([0xDE, 0xAD] : Bytes).length) ∧
    (3 ≤ 13 ∧ 13 ≤ 7 ∨ 10 ≤ 13 ∧ 13 < 12 + ([0xDE, 0xAD] : Bytes).length) ∧
    findMarker (flipBit (encodeFrame 0x03 1 [0xDE, 0xAD]) 0 0) = none ∧
    (le16 (byteAt (flipBit F1 8 1) 8) (byteAt (flipBit F1 8 1) 9)).toNat < 2 ∧
    2 < (le16 (byteAt (flipBit F1 9 7) 8) (byteAt (flipBit F1 9 7) 9)).toNat := by decide +kernel

end Sys2Proof.Tests
end

/-! ## What a command does, field by field

Every command that is not refused leaves a register value that depends on the register alone, and a buffer and a response
that depend on the buffer alone. The three functions below say which, `exec_eq_next` ties them to `exec`, and the facts
about `crc_reg` (R22), `rx_buf` (R23) and the responses' sizes (R83) are facts about these functions. -/

namespace Sys2Proof.Machine

/-- The CRC register after a command (R22). -/
def crcAfter : Instr → U16 → U16
  | .crcinit, _ => CRC_INIT
  | .crcbyte b, c => crcStep c b
  | _, c => c

/-- The receive buffer after a command (R23). -/
def bufAfter : Instr → Bytes → Bytes
  | .feed b, buf => if buf.length < BUF_CAP then buf ++ [b] else buf
  | .take, buf => (takeBuf buf).2
  | .clear, _ => []
  | _, buf => buf

/-- The response to a command, given the receive buffer before it (R83). -/
def responseOf : Instr → Bytes → Response
  | .nop, _ | .clear, _ | .crcinit, _ | .crcbyte _, _ => .ok
  | .feed _, buf => if buf.length < BUF_CAP then .ok else .rejected
  | .take, buf => takeResponse (takeBuf buf).1
  | .encode ty seq payload, _ => .bytes (encodeFrame ty seq payload)
  | .fcrc ty seq payload, _ => .crc (frameCrc ty seq payload)
  | .fverify ty seq payload crc, _ => .verdict (crcMatches crc (frameCrc ty seq payload))
  | .reserved9, _ | .reservedA, _ | .reservedB, _ | .reservedC, _ | .reservedD, _ | .reservedE, _ | .reservedF, _ =>
    .illegal

/-- The whole state after a command. -/
def afterCommand (i : Instr) (s : State) : State :=
  ((s.setCrcReg (crcAfter i s.crcReg)).setRxBuf (bufAfter i s.rxBuf)).respond (responseOf i s.rxBuf)

@[simp] theorem afterCommand_crcReg (i : Instr) (s : State) : (afterCommand i s).crcReg = crcAfter i s.crcReg := rfl

@[simp] theorem afterCommand_rxBuf (i : Instr) (s : State) : (afterCommand i s).rxBuf = bufAfter i s.rxBuf := rfl

@[simp] theorem afterCommand_inputs (i : Instr) (s : State) : (afterCommand i s).inputs = s.inputs := rfl

@[simp] theorem afterCommand_responses (i : Instr) (s : State) :
    (afterCommand i s).responses = s.responses ++ [responseOf i s.rxBuf] := rfl

/-- A well-formed command completes (R157): FEED on both sides of a full buffer, and the frame commands by their length
check, are what there is to see. -/
theorem exec_of_wellFormed {i : Instr} (s : State) (hw : i.wellFormed = true) :
    exec i s = .next (afterCommand i s) := by
  cases i with
  | feed b =>
    obtain ⟨hroom, h⟩ | ⟨hfull, h⟩ := execFeed_cases b s
    · exact h.trans (by simp only [afterCommand, bufAfter, responseOf, if_pos hroom]; rfl)
    · exact h.trans (by simp only [afterCommand, bufAfter, responseOf, if_neg (Nat.not_lt.mpr hfull)]; rfl)
  | encode ty seq payload => exact respondIfFormed_of_le _ s (of_decide_eq_true hw)
  | fcrc ty seq payload => exact respondIfFormed_of_le _ s (of_decide_eq_true hw)
  | fverify ty seq payload crc => exact respondIfFormed_of_le _ s (of_decide_eq_true hw)
  | _ => rfl

/-- A command with a payload that is too long is refused (R106). -/
theorem wellFormed_of_exec_eq_next {i : Instr} {s t : State} (h : exec i s = .next t) : i.wellFormed = true := by
  cases i with
  | encode ty seq payload => exact decide_eq_true (respondIfFormed_eq_next.mp h).1
  | fcrc ty seq payload => exact decide_eq_true (respondIfFormed_eq_next.mp h).1
  | fverify ty seq payload crc => exact decide_eq_true (respondIfFormed_eq_next.mp h).1
  | _ => rfl

/-- Everything a command can do: it answers exactly when it is well-formed, and then with `afterCommand`. -/
theorem exec_eq_next {i : Instr} {s t : State} :
    exec i s = .next t ↔ i.wellFormed = true ∧ t = afterCommand i s := by
  constructor
  · intro h
    have hw := wellFormed_of_exec_eq_next h
    rw [exec_of_wellFormed s hw] at h
    exact ⟨hw, by simpa using h.symm⟩
  · rintro ⟨hw, rfl⟩
    exact exec_of_wellFormed s hw

/-- Everything a step that goes on can do: idle (R162), reset (R170, R171), or one whole command (R40). -/
theorem step_next_cases {s t : State} (h : step s = .next t) :
    (s.inputs = [] ∧ t = s) ∨
    (∃ c rest, s.inputs = .reset c :: rest ∧ t = s.resetBlock.setInputs rest) ∨
    (∃ c rest i, s.inputs = .command c :: rest ∧ decode c = .ok i ∧ i.wellFormed = true ∧
      t = afterCommand i (s.setInputs rest)) := by
  match hin : s.inputs with
  | [] =>
    rw [step_of_idle hin] at h
    exact .inl ⟨rfl, by simpa using h.symm⟩
  | .reset c :: rest =>
    rw [step_of_reset_input hin] at h
    exact .inr (.inl ⟨c, rest, rfl, by simpa using h.symm⟩)
  | .command c :: rest =>
    cases hd : decode c with
    | error e => simp [step_of_command_error hin hd] at h
    | ok i =>
      rw [step_of_command_ok hin hd] at h
      obtain ⟨hw, ht⟩ := exec_eq_next.mp h
      exact .inr (.inr ⟨c, rest, i, rfl, hd, hw, ht⟩)

end Sys2Proof.Machine

/-! ## What TAKE leaves and what it returns -/

namespace Sys2Proof.Machine

/-- The receive buffer that a pass of TAKE's loop leaves, however the pass ends. -/
def PassEnd.rest : PassEnd → Bytes
  | .needMore b => b
  | .restart b => b
  | .frame _ b => b

@[simp] theorem PassEnd.rest_needMore (b : Bytes) : (PassEnd.needMore b).rest = b := rfl

@[simp] theorem PassEnd.rest_restart (b : Bytes) : (PassEnd.restart b).rest = b := rfl

@[simp] theorem PassEnd.rest_frame (f : Frame) (b : Bytes) : (PassEnd.frame f b).rest = b := rfl

/-- Steps 4 to 7 remove bytes only at the front (R23). -/
theorem syncPass_rest_suffix (b : Bytes) : (syncPass b).rest <:+ b := by
  obtain ⟨_, e⟩ | ⟨_, _, e⟩ | ⟨_, _, _, e⟩ | ⟨_, _, e⟩ := syncPass_cases b <;> rw [e]
  · exact List.suffix_rfl
  · exact List.drop_suffix _ _
  · exact List.suffix_rfl
  · exact List.drop_suffix _ _

/-- A pass removes bytes only at the front (R23). -/
theorem takePass_rest_suffix (b : Bytes) : (takePass b).rest <:+ b := by
  obtain ⟨_, e⟩ | ⟨_, _, e⟩ | ⟨k, tail, _, _, hd, e⟩ := takePass_cases b <;> rw [e]
  · exact List.suffix_rfl
  · exact List.nil_suffix
  · exact (syncPass_rest_suffix _).trans (hd ▸ List.drop_suffix k b)

/-- A pass that ends in a frame has extracted it, with its declared length, from the marker on. -/
theorem takePass_frame {b rest : Bytes} {f : Frame} (h : takePass b = .frame f rest) :
    ∃ tail, f = extractFrame (MAGIC0 :: MAGIC1 :: tail) (declaredLength (MAGIC0 :: MAGIC1 :: tail)) := by
  obtain ⟨_, e⟩ | ⟨_, _, e⟩ | ⟨k, tail, _, _, _, e⟩ := takePass_cases b <;> rw [h] at e
  · cases e
  · cases e
  · refine ⟨tail, ?_⟩
    obtain ⟨_, e'⟩ | ⟨_, _, e'⟩ | ⟨_, _, _, e'⟩ | ⟨_, _, e'⟩ := syncPass_cases (MAGIC0 :: MAGIC1 :: tail) <;>
      rw [← e] at e' <;> cases e'
    rfl

/-- The declared length is a 16-bit value, so an extracted payload has at most 65535 bytes (R65, R83). -/
theorem extractFrame_payload_length_le (b c : Bytes) :
    (extractFrame b (declaredLength c)).payload.length ≤ MAX_PAYLOAD := by
  have hn : declaredLength c < 65536 := BitVec.isLt _
  simp [extractFrame]
  omega

/-- How TAKE's loop ends: its last pass runs on a suffix of the buffer and gives the loop's result. -/
theorem takeLoop_last_pass {n : Nat} {b : Bytes} {x : Option Frame × Bytes} (h : takeLoop n b = some x) :
    ∃ b', b' <:+ b ∧
      ((x.1 = none ∧ takePass b' = .needMore x.2) ∨ ∃ f, x.1 = some f ∧ takePass b' = .frame f x.2) := by
  induction n generalizing b with
  | zero => simp [takeLoop] at h
  | succ n ih =>
    rw [takeLoop_succ] at h
    cases hp : takePass b with
    | needMore r =>
      obtain rfl : (none, r) = x := by simpa [hp] using h
      exact ⟨b, List.suffix_rfl, .inl ⟨rfl, hp⟩⟩
    | frame f r =>
      obtain rfl : (some f, r) = x := by simpa [hp] using h
      exact ⟨b, List.suffix_rfl, .inr ⟨f, rfl, hp⟩⟩
    | restart r =>
      obtain ⟨b', hs, hend⟩ := ih (by simpa [hp] using h)
      have hr : r <:+ b := by simpa [hp] using takePass_rest_suffix b
      exact ⟨b', hs.trans hr, hend⟩

/-- The loop ends within any number of passes greater than half the buffer's length (R126). -/
theorem takeLoop_ne_none {n : Nat} {b : Bytes} (h : b.length / 2 < n) : takeLoop n b ≠ none := by
  induction n generalizing b with
  | zero => omega
  | succ n ih =>
    rw [takeLoop_succ]
    cases hp : takePass b with
    | needMore r => simp
    | frame f r => simp
    | restart r =>
      have hl : r.length + 2 ≤ b.length := takePass_restart_length hp
      exact ih (by omega)

/-- `takeBuf` is the loop's result; its default is never taken. -/
theorem takeLoop_eq_takeBuf (b : Bytes) : takeLoop (b.length / 2 + 1) b = some (takeBuf b) := by
  obtain ⟨x, hx⟩ := Option.ne_none_iff_exists'.mp (takeLoop_ne_none (Nat.lt_succ_self (b.length / 2)))
  rw [takeBuf, hx, Option.getD_some]

/-- TAKE removes bytes only at the front of the buffer (R23). -/
theorem takeBuf_suffix (b : Bytes) : (takeBuf b).2 <:+ b := by
  obtain ⟨b', hs, ⟨_, hp⟩ | ⟨f, _, hp⟩⟩ := takeLoop_last_pass (takeLoop_eq_takeBuf b)
  · simpa [hp] using (takePass_rest_suffix b').trans hs
  · simpa [hp] using (takePass_rest_suffix b').trans hs

/-- A frame that TAKE returns has at most 65535 payload bytes (R83). -/
theorem takeBuf_payload_length_le {b : Bytes} {f : Frame} (h : (takeBuf b).1 = some f) :
    f.payload.length ≤ MAX_PAYLOAD := by
  obtain ⟨b', _, ⟨ho, _⟩ | ⟨g, ho, hp⟩⟩ := takeLoop_last_pass (takeLoop_eq_takeBuf b)
  · simp [h] at ho
  · obtain rfl : f = g := by simpa [h] using ho
    obtain ⟨tail, rfl⟩ := takePass_frame hp
    exact extractFrame_payload_length_le _ _

end Sys2Proof.Machine

/-! ## The state: the invariant, the status outputs, and who uses `crc_reg` and `rx_buf` -/

namespace Sys2Proof.Machine

/-- Only CRCINIT and CRCBYTE write `crc_reg` (R22). -/
theorem crcAfter_of_not_crc_command {i : Instr} (hinit : i ≠ .crcinit) (hbyte : ∀ b, i ≠ .crcbyte b) (c : U16) :
    crcAfter i c = c := by
  cases i with
  | crcinit => exact absurd rfl hinit
  | crcbyte b => exact absurd rfl (hbyte b)
  | _ => rfl

/-- No command grows the buffer past its capacity (R24, R111). -/
theorem bufAfter_length_le (i : Instr) {buf : Bytes} (h : buf.length ≤ BUF_CAP) :
    (bufAfter i buf).length ≤ BUF_CAP := by
  cases i with
  | feed b =>
    by_cases hroom : buf.length < BUF_CAP
    · simp only [bufAfter, if_pos hroom, List.length_append, List.length_singleton]
      omega
    · simpa [bufAfter, hroom] using h
  | take => exact (takeBuf_suffix buf).length_le.trans h
  | clear => exact Nat.zero_le _
  | _ => exact h

/-- A well-formed command's response has the size R83 gives it: TAKE's payload and ENCODE's frame are the two to check. -/
theorem responseOf_sized {i : Instr} (hw : i.wellFormed = true) (buf : Bytes) : (responseOf i buf).sized = true := by
  cases i with
  | feed b => rw [responseOf]; split <;> rfl
  | take =>
    rw [responseOf]
    cases hf : (takeBuf buf).1 with
    | none => rfl
    | some f => exact decide_eq_true (takeBuf_payload_length_le hf)
  | encode ty seq payload =>
    have hp : payload.length ≤ 65535 := of_decide_eq_true hw
    simp [responseOf, Response.sized, hp]
  | _ => rfl

theorem State.Inv.setInputs {s : State} (h : s.Inv) (is : List HostInput) : (s.setInputs is).Inv := h

theorem State.Inv.resetBlock {s : State} (h : s.Inv) : s.resetBlock.Inv :=
  ⟨Nat.zero_le _, h.2⟩

theorem State.Inv.afterCommand {s : State} {i : Instr} (h : s.Inv) (hw : i.wellFormed = true) :
    (afterCommand i s).Inv := by
  obtain ⟨hbuf, hresp⟩ := h
  refine ⟨bufAfter_length_le i hbuf, fun r hr => ?_⟩
  obtain hr | rfl : r ∈ s.responses ∨ r = responseOf i s.rxBuf := by simpa using hr
  · exact hresp r hr
  · exact responseOf_sized hw s.rxBuf

/-- `rx_level` has a width that holds every length up to `BUF_CAP` (R25). -/
theorem BUF_CAP_lt_two_pow_rxLevelWidth : BUF_CAP < 2 ^ rxLevelWidth :=
  Nat.le_pow_clog (by decide) (BUF_CAP + 1)

theorem rxLevelOut_toNat {s : State} (h : s.rxBuf.length ≤ BUF_CAP) : (rxLevelOut s).toNat = s.rxBuf.length := by
  rw [rxLevelOut, BitVec.toNat_ofNat, rxLevel]
  exact Nat.mod_eq_of_lt (Nat.lt_of_le_of_lt h BUF_CAP_lt_two_pow_rxLevelWidth)

end Sys2Proof.Machine

section

open Sys2Proof Sys2Proof.Machine

/-- Settles O14: each of the three kinds of step keeps the invariant. -/
theorem stepKeepsTheInvariant : Obligations.StepKeepsTheInvariant := by
  intro s t hs h
  obtain ⟨_, rfl⟩ | ⟨_, rest, _, rfl⟩ | ⟨_, rest, i, _, _, hw, rfl⟩ := step_next_cases h
  · exact hs
  · exact hs.resetBlock.setInputs rest
  · exact (hs.setInputs rest).afterCommand hw

/-- Settles O16: the width `ceil(log2(BUF_CAP + 1))` holds every length up to `BUF_CAP`. -/
theorem statusOutputs : Obligations.StatusOutputs := by
  refine ⟨fun s => ⟨rfl, rfl, inReady_iff s, rxLevelOut_toNat⟩, fun hcap => ?_⟩
  rw [rxLevelWidth, hcap]
  have hupper : Nat.clog 2 (65547 + 1) ≤ 17 := Nat.clog_le_of_le_pow (by norm_num)
  have hlower : 16 < Nat.clog 2 (65547 + 1) := (Nat.lt_clog_iff_pow_lt (by norm_num)).mpr (by norm_num)
  exact Nat.le_antisymm hupper hlower

/-- Settles O17: the register's next value is its old one, and nothing else of `afterCommand` looks at it. -/
theorem onlyCrcCommandsUseCrcReg : Obligations.OnlyCrcCommandsUseCrcReg := by
  intro i s t v hinit hbyte h
  obtain ⟨hw, rfl⟩ := exec_eq_next.mp h
  have hkeep : ∀ c, crcAfter i c = c := crcAfter_of_not_crc_command hinit hbyte
  refine ⟨hkeep s.crcReg, exec_eq_next.mpr ⟨hw, State.eq_of_fields (hkeep v).symm rfl rfl rfl⟩⟩

/-- Settles O18: `bufAfter` command by command, and the reset step. -/
theorem rxBufWriters : Obligations.RxBufWriters := by
  refine ⟨fun i s t h => ?_, fun s t c rest hin h => ?_⟩
  · obtain ⟨_, rfl⟩ := exec_eq_next.mp h
    cases i with
    | feed b => exact (ite_eq_or_eq _ _ _).symm
    | take =>
      obtain ⟨gone, hgone⟩ := takeBuf_suffix s.rxBuf
      exact ⟨gone, hgone.symm⟩
    | _ => rfl
  · rw [step_of_reset_input hin] at h
    cases h
    rfl

/-- Settles O10: R30's table, evaluated. -/
theorem resetValues : Obligations.ResetValues :=
  ⟨rfl, rfl, rfl, rfl, rfl⟩

/-- Settles O15: an empty buffer and no response. -/
theorem resetMeetsTheInvariant : Obligations.ResetMeetsTheInvariant :=
  ⟨Nat.zero_le _, by simp⟩

end

/-! ## The command port: a presented command is the command itself -/

namespace Sys2Proof.Machine

/-- A frame command is formed when its declared length is its payload's (R106). -/
theorem decodeFrameCommand_of_plen {c : PortCommand} (i : Instr) (h : c.plen.toNat = c.payload.length) :
    decodeFrameCommand c i = .ok i :=
  if_pos h

/-- The length of a payload that can be formed fits in `plen` (R82, R106). -/
theorem frameCommand_plen_toNat (op : BitVec 4) (ty : Byte) (seq : U32) {payload : Bytes} (crc : U16)
    (h : payload.length ≤ MAX_PAYLOAD) :
    (frameCommand op ty seq payload crc).plen.toNat = (frameCommand op ty seq payload crc).payload.length :=
  Nat.mod_eq_of_lt (Nat.lt_succ_of_le h)

/-! The rows of the opcode map that take operands (R81), by the value of `op`. -/

theorem decode_row_crcbyte {c : PortCommand} (h : c.op = 0x3) : decode c = .ok (.crcbyte c.b) := by
  rw [decode, h]; rfl

theorem decode_row_feed {c : PortCommand} (h : c.op = 0x4) : decode c = .ok (.feed c.b) := by
  rw [decode, h]; rfl

theorem decode_row_encode {c : PortCommand} (h : c.op = 0x6) :
    decode c = decodeFrameCommand c (.encode c.ty c.seq c.payload) := by
  rw [decode, h]; rfl

theorem decode_row_fcrc {c : PortCommand} (h : c.op = 0x7) :
    decode c = decodeFrameCommand c (.fcrc c.ty c.seq c.payload) := by
  rw [decode, h]; rfl

theorem decode_row_fverify {c : PortCommand} (h : c.op = 0x8) :
    decode c = decodeFrameCommand c (.fverify c.ty c.seq c.payload c.crc) := by
  rw [decode, h]; rfl

/-- The decoder reads back every command that can be formed, with all its operands (R81, R82). -/
theorem decode_encode {i : Instr} (hw : i.wellFormed = true) : decode (encode i) = .ok i := by
  cases i with
  | crcbyte b => exact decode_row_crcbyte rfl
  | feed b => exact decode_row_feed rfl
  | encode ty seq payload =>
    exact (decode_row_encode rfl).trans
      (decodeFrameCommand_of_plen _ (frameCommand_plen_toNat _ ty seq _ (of_decide_eq_true hw)))
  | fcrc ty seq payload =>
    exact (decode_row_fcrc rfl).trans
      (decodeFrameCommand_of_plen _ (frameCommand_plen_toNat _ ty seq _ (of_decide_eq_true hw)))
  | fverify ty seq payload crc =>
    exact (decode_row_fverify rfl).trans
      (decodeFrameCommand_of_plen _ (frameCommand_plen_toNat _ ty seq crc (of_decide_eq_true hw)))
  | _ => rfl

/-- A step with a well-formed command presented is that command, whole (R40). -/
theorem step_of_presented {s : State} {i : Instr} {rest : List HostInput} (hw : i.wellFormed = true)
    (hin : s.inputs = .command (encode i) :: rest) : step s = .next (afterCommand i (s.setInputs rest)) := by
  rw [step_of_command_ok hin (decode_encode hw), exec_of_wellFormed _ hw]

/-- No command looks at what is still to be presented. -/
theorem afterCommand_setInputs (i : Instr) (s : State) (is : List HostInput) :
    (afterCommand i s).setInputs is = afterCommand i (s.setInputs is) := rfl

/-- Presented commands run one after another (R41): the first step is the first command, and what that command leaves is
a state that again begins with the rest of the list. -/
theorem run_presented {is : List Instr} {s : State} {rest : List HostInput} (hw : ∀ i ∈ is, i.wellFormed = true)
    (hin : s.inputs = presented is ++ rest) :
    Host.Core.run core is.length s = runInstrs is (s.setInputs rest) := by
  induction is generalizing s with
  | nil =>
    obtain rfl : s.inputs = rest := hin
    rfl
  | cons i is ih =>
    obtain ⟨hwi, hwis⟩ := List.forall_mem_cons.mp hw
    have hstep : core.step s = .next (afterCommand i (s.setInputs (presented is ++ rest))) := step_of_presented hwi hin
    rw [List.length_cons, run_of_next _ hstep, ih hwis rfl, afterCommand_setInputs, State.setInputs_setInputs,
      ← runInstrs_of_next is (exec_of_wellFormed _ hwi)]

end Sys2Proof.Machine

/-! ## Runs of commands: the receive queue and the output stream -/

namespace Sys2Proof.Machine

@[simp] theorem runInstrs_nil_eq_next {s t : State} : runInstrs [] s = .next t ↔ s = t := by
  simp [runInstrs]

theorem acceptedBytes_cons (i : Instr) (r : Response) (is : List Instr) (rs : List Response) :
    acceptedBytes (i :: is) (r :: rs) = acceptedBytes [i] [r] ++ acceptedBytes is rs :=
  List.filterMap_append (l := [(i, r)])

/-- One command is first in, first out (R52): FEED enqueues the byte it accepts, TAKE and CLEAR dequeue at the front,
and every other command leaves the queue. -/
theorem bufAfter_fifo (i : Instr) (buf : Bytes) :
    ∃ gone, buf ++ acceptedBytes [i] [responseOf i buf] = gone ++ bufAfter i buf := by
  cases i with
  | feed b =>
    refine ⟨[], ?_⟩
    by_cases hroom : buf.length < BUF_CAP <;> simp [acceptedBytes, responseOf, bufAfter, hroom]
  | take =>
    obtain ⟨gone, hgone⟩ := takeBuf_suffix buf
    exact ⟨gone, (List.append_nil buf).trans hgone.symm⟩
  | clear => exact ⟨buf, rfl⟩
  | _ => exact ⟨[], List.append_nil buf⟩

/-- A run's queue (R52): what leaves during the run is what the first command dequeues and then what the others do. -/
theorem runInstrs_fifo {is : List Instr} {s t : State} (h : runInstrs is s = .next t) :
    ∃ rs gone, rs.length = is.length ∧ t.responses = s.responses ++ rs ∧
      s.rxBuf ++ acceptedBytes is rs = gone ++ t.rxBuf := by
  induction is generalizing s with
  | nil =>
    obtain rfl := runInstrs_nil_eq_next.mp h
    exact ⟨[], [], rfl, (List.append_nil _).symm, List.append_nil _⟩
  | cons i is ih =>
    obtain ⟨u, hi, hu⟩ := runInstrs_cons_eq_next.mp h
    obtain ⟨_, rfl⟩ := exec_eq_next.mp hi
    obtain ⟨rs, later, hlen, hresp, hrest⟩ := ih hu
    obtain ⟨first, hfirst⟩ := bufAfter_fifo i s.rxBuf
    refine ⟨responseOf i s.rxBuf :: rs, first ++ later, by simp [hlen], by simp [hresp], ?_⟩
    calc s.rxBuf ++ acceptedBytes (i :: is) (responseOf i s.rxBuf :: rs)
        = (s.rxBuf ++ acceptedBytes [i] [responseOf i s.rxBuf]) ++ acceptedBytes is rs := by
          rw [acceptedBytes_cons, List.append_assoc]
      _ = first ++ (bufAfter i s.rxBuf ++ acceptedBytes is rs) := by rw [hfirst, List.append_assoc]
      _ = first ++ (later ++ t.rxBuf) := congrArg (first ++ ·) hrest
      _ = (first ++ later) ++ t.rxBuf := (List.append_assoc ..).symm

/-- The bytes a command emits (R53): ENCODE its frame, every other command nothing. -/
def emittedBytes : Instr → Bytes
  | .encode ty seq payload => encodeFrame ty seq payload
  | _ => []

theorem outputStream_append (rs qs : List Response) : outputStream (rs ++ qs) = outputStream rs ++ outputStream qs :=
  List.flatMap_append

/-- Only ENCODE's response carries bytes of the output stream (R53): FEED and TAKE, which have a choice of responses,
have none that does. -/
theorem outputStream_responseOf (i : Instr) (buf : Bytes) : outputStream [responseOf i buf] = emittedBytes i := by
  cases i with
  | feed b => rw [responseOf]; split <;> rfl
  | take => rw [responseOf]; cases (takeBuf buf).1 <;> rfl
  | encode ty seq payload => exact List.append_nil _
  | _ => rfl

/-- A run's output stream grows by what its commands emit, in command order (R53). -/
theorem runInstrs_outputStream {is : List Instr} {s t : State} (h : runInstrs is s = .next t) :
    outputStream t.responses = outputStream s.responses ++ is.flatMap emittedBytes := by
  induction is generalizing s with
  | nil =>
    obtain rfl := runInstrs_nil_eq_next.mp h
    exact (List.append_nil _).symm
  | cons i is ih =>
    obtain ⟨u, hi, hu⟩ := runInstrs_cons_eq_next.mp h
    obtain ⟨_, rfl⟩ := exec_eq_next.mp hi
    rw [ih hu, afterCommand_responses, outputStream_append, outputStream_responseOf, List.flatMap_cons,
      List.append_assoc]

end Sys2Proof.Machine

/-! ## The CRC byte step as a bit-serial register

`crcStep` XORs the whole byte in and then shifts eight times; the bit-serial register takes one input bit per shift.
Since the shift is linear, input bits that have not reached bit 15 yet can wait in a word `x` beside the register `r`:
the shifts of `r ^^^ x` are the serial steps of `r` on the bits that leave `x` at the top, XORed with what is left of
`x`. -/

namespace Sys2Proof.Machine

/-- One shift of the bit-serial CRC register with one input bit (R47, R90). -/
def serialStep (r : U16) (bit : Bool) : U16 :=
  if (r.getLsbD 15 != bit) = true then (r <<< 1) ^^^ POLY else r <<< 1

/-- The first `n` bits of a word, most significant first: those that `n` left shifts push out. -/
def topBits : Nat → U16 → List Bool
  | 0, _ => []
  | n + 1, x => x.getLsbD 15 :: topBits n (x <<< 1)

/-- One shift of R90 with input bits waiting in `x`: the top one is taken into the register, the others move up. -/
theorem crcShift_xor_waiting (r x : U16) : crcShift (r ^^^ x) = serialStep r (x.getLsbD 15) ^^^ x <<< 1 := by
  have hbit : (r ^^^ x).getLsbD 15 = (r.getLsbD 15 != x.getLsbD 15) := BitVec.getLsbD_xor
  have hshift : (r ^^^ x) <<< 1 = r <<< 1 ^^^ x <<< 1 := BitVec.shiftLeft_xor_distrib ..
  rw [crcShift, serialStep, hbit, hshift]
  split
  · ac_rfl
  · rfl

theorem crcShifts_xor_waiting (n : Nat) (r x : U16) :
    crcShifts n (r ^^^ x) = (topBits n x).foldl serialStep r ^^^ x <<< n := by
  induction n generalizing r x with
  | zero => simp [crcShifts, topBits]
  | succ n ih =>
    rw [crcShifts, crcShift_xor_waiting, ih, topBits, List.foldl_cons, ← BitVec.shiftLeft_add, Nat.add_comm 1 n]

/-- A byte in bits 15..8 of a word leaves it at the top, bit 7 first. -/
theorem topBits_byte (b : Byte) :
    topBits 8 (b.zeroExtend 16 <<< 8) = [7, 6, 5, 4, 3, 2, 1, 0].map b.getLsbD := by
  simp [topBits]

/-- After eight shifts nothing of the byte is waiting. -/
theorem byte_shifted_out (b : Byte) : (b.zeroExtend 16 <<< 8) <<< 8 = (0 : U16) := by
  rw [← BitVec.shiftLeft_add]
  exact BitVec.shiftLeft_eq_zero (by decide)

/-- The byte step is the bit-serial register on the byte's bits, most significant first (R47). -/
theorem crcStep_eq_foldl_serialStep (c : U16) (b : Byte) :
    crcStep c b = ([7, 6, 5, 4, 3, 2, 1, 0].map b.getLsbD).foldl serialStep c := by
  rw [crcStep, crcShifts_xor_waiting, topBits_byte, byte_shifted_out]
  exact BitVec.xor_zero

end Sys2Proof.Machine

section

open Sys2Proof Sys2Proof.Machine

/-- Settles O11: by induction on the presented commands. -/
theorem presentedCommandsRunInOrder : Obligations.PresentedCommandsRunInOrder :=
  fun _ _ _ hw hin => run_presented hw hin

/-- Settles O12: the state after a well-formed command is `afterCommand`, which adds the one response. -/
theorem everyCommandCompletesWithOneResponse : Obligations.EveryCommandCompletesWithOneResponse :=
  fun i s hw => ⟨afterCommand i s, responseOf i s.rxBuf, exec_of_wellFormed s hw, rfl, rfl⟩

/-- Settles O19: by induction on the run, each command being first in, first out. -/
theorem rxBufIsFirstInFirstOut : Obligations.RxBufIsFirstInFirstOut :=
  fun _ _ _ h => runInstrs_fifo h

/-- Settles O20: by induction on the run; `emittedBytes` is what the statement says of each command. -/
theorem outputStreamIsTheEncodedFrames : Obligations.OutputStreamIsTheEncodedFrames :=
  fun _ _ _ h => runInstrs_outputStream h

/-- Settles O29: the bits of the byte wait in bits 15..8 and enter the register one per shift. -/
theorem crcStepIsBitSerial : Obligations.CrcStepIsBitSerial := by
  intro c b
  rw [crcStep_eq_foldl_serialStep, List.foldl_map]
  rfl

/-- Settles O7: the two kinds of step without reset. -/
theorem stepRunsTheDecodedCommand : Obligations.StepRunsTheDecodedCommand :=
  ⟨fun _ _ _ _ hin hd => step_of_command_ok hin hd, fun _ h => step_of_idle h⟩

end

/-! ## The decoder, row by row

Five rows of the opcode map (R81) take operands, and `decode_row_*` says what each decodes to. The eleven others are the
operand-free commands listed here. `decode_cases` puts the rows into two kinds: those that every presented command of
that opcode decodes to, and the frame commands, which R106 refuses on a wrong length. -/

namespace Sys2Proof.Machine

/-- The commands without operands (R81). -/
def operandFreeCommands : List Instr :=
  [.nop, .clear, .crcinit, .take, .reserved9, .reservedA, .reservedB, .reservedC, .reservedD, .reservedE, .reservedF]

theorem wellFormed_of_mem_operandFreeCommands : ∀ i ∈ operandFreeCommands, i.wellFormed = true := by decide

theorem opHasPayload_of_mem_operandFreeCommands : ∀ i ∈ operandFreeCommands, opHasPayload (encode i).op = false := by
  decide

/-- An operand-free row looks at no operand field (R80). -/
theorem decode_row_operandFree {i : Instr} (hi : i ∈ operandFreeCommands) {c : PortCommand} (h : c.op = (encode i).op) :
    decode c = .ok i := by
  rw [decode, h]
  fin_cases hi <;> rfl

/-- Each of the 16 values of `op` is one of the five with operands or that of an operand-free command (R84). -/
theorem op_cases (op : BitVec 4) :
    op = 0x3 ∨ op = 0x4 ∨ op = 0x6 ∨ op = 0x7 ∨ op = 0x8 ∨ ∃ i ∈ operandFreeCommands, op = (encode i).op := by
  revert op
  decide

theorem PortCommand.wellFormed_iff (c : PortCommand) :
    c.wellFormed = true ↔ (opHasPayload c.op = true → c.plen.toNat = c.payload.length) := by
  simp [PortCommand.wellFormed, imp_iff_not_or]

/-- A frame command is given as it is, and only with `plen = len(payload)` (R106). -/
theorem decodeFrameCommand_eq_ok {c : PortCommand} {i j : Instr} :
    decodeFrameCommand c i = .ok j ↔ c.plen.toNat = c.payload.length ∧ j = i := by
  unfold decodeFrameCommand
  split <;> simp_all [eq_comm]

/-- `plen` is a 16-bit field, so a payload of the declared length can be formed (R82). -/
theorem payload_length_le_of_plen {c : PortCommand} (h : c.plen.toNat = c.payload.length) :
    c.payload.length ≤ MAX_PAYLOAD :=
  h ▸ Nat.le_of_lt_succ c.plen.isLt

/-- The two kinds of rows: a command without a payload is decoded whatever is presented with it, and a frame command's
row is left to the length check. -/
theorem decode_cases (c : PortCommand) :
    (opHasPayload c.op = false ∧ ∃ i, decode c = .ok i ∧ i.wellFormed = true ∧ (encode i).op = c.op) ∨
    (opHasPayload c.op = true ∧ ∃ i, decode c = decodeFrameCommand c i ∧ (encode i).op = c.op ∧
      i.wellFormed = decide (c.payload.length ≤ MAX_PAYLOAD)) := by
  obtain h | h | h | h | h | ⟨i, hi, h⟩ := op_cases c.op
  · exact .inl ⟨by rw [h]; rfl, _, decode_row_crcbyte h, rfl, h.symm⟩
  · exact .inl ⟨by rw [h]; rfl, _, decode_row_feed h, rfl, h.symm⟩
  · exact .inr ⟨by rw [h]; rfl, _, decode_row_encode h, h.symm, rfl⟩
  · exact .inr ⟨by rw [h]; rfl, _, decode_row_fcrc h, h.symm, rfl⟩
  · exact .inr ⟨by rw [h]; rfl, _, decode_row_fverify h, h.symm, rfl⟩
  · exact .inl ⟨h ▸ opHasPayload_of_mem_operandFreeCommands i hi, i, decode_row_operandFree hi h,
      wellFormed_of_mem_operandFreeCommands i hi, h.symm⟩

/-- What is decoded can be formed, and is presented under the same opcode (R82, R106). -/
theorem wellFormed_and_op_of_decode_eq_ok {c : PortCommand} {i : Instr} (h : decode c = .ok i) :
    i.wellFormed = true ∧ (encode i).op = c.op := by
  obtain ⟨_, j, hj, hw, hop⟩ | ⟨_, j, hj, hop, hw⟩ := decode_cases c
  · obtain rfl : j = i := Except.ok.inj (hj.symm.trans h)
    exact ⟨hw, hop⟩
  · obtain ⟨hlen, rfl⟩ := decodeFrameCommand_eq_ok.mp (hj.symm.trans h)
    exact ⟨hw.trans (decide_eq_true (payload_length_le_of_plen hlen)), hop⟩

/-- Exactly the well-formed presented commands are decoded (R84, R106). -/
theorem exists_decode_eq_ok_iff (c : PortCommand) : (∃ i, decode c = .ok i) ↔ c.wellFormed = true := by
  rw [PortCommand.wellFormed_iff]
  obtain ⟨hop, i, hi, _⟩ | ⟨hop, i, hi, _⟩ := decode_cases c
  · simp [hop, hi]
  · simp [hop, hi, decodeFrameCommand_eq_ok]

/-- There is one decode error, so a command is refused exactly when it is not decoded. -/
theorem decode_eq_error_iff (c : PortCommand) :
    decode c = .error .payloadLengthMismatch ↔ ¬ ∃ i, decode c = .ok i := by
  match decode c with
  | .ok i => simp
  | .error .payloadLengthMismatch => simp

end Sys2Proof.Machine

section

open Sys2Proof Sys2Proof.Machine

/-- Settles O1: constructor by constructor, the frame commands because their payload's length fits in `plen`. -/
theorem decodeInvertsEncode : Obligations.DecodeInvertsEncode :=
  fun _ hw => decode_encode hw

/-- Settles O2: each clause is the row of its opcode. -/
theorem decodedOperandsAreThePortFields : Obligations.DecodedOperandsAreThePortFields := by
  intro c i h
  obtain ⟨hw, hop⟩ := wellFormed_and_op_of_decode_eq_ok h
  have hplen : opHasPayload c.op = true → c.plen.toNat = c.payload.length :=
    (PortCommand.wellFormed_iff c).mp ((exists_decode_eq_ok_iff c).mp ⟨i, h⟩)
  refine ⟨hw, hop, fun h3 => ?_, fun h4 => ?_, fun h6 => ?_, fun h7 => ?_, fun h8 => ?_, fun hp => ?_⟩
  · exact Except.ok.inj (h.symm.trans (decode_row_crcbyte h3))
  · exact Except.ok.inj (h.symm.trans (decode_row_feed h4))
  · exact (decodeFrameCommand_eq_ok.mp ((decode_row_encode h6).symm.trans h)).2
  · exact (decodeFrameCommand_eq_ok.mp ((decode_row_fcrc h7).symm.trans h)).2
  · exact (decodeFrameCommand_eq_ok.mp ((decode_row_fverify h8).symm.trans h)).2
  · exact ⟨hplen hp, payload_length_le_of_plen (hplen hp)⟩

/-- Settles O3: the opcode's row names every field that is read. -/
theorem unusedOperandFieldsAreIgnored : Obligations.UnusedOperandFieldsAreIgnored := by
  intro c d hop hb hframe hcrc
  have hlength : opHasPayload c.op = true → ∀ i, decodeFrameCommand c i = decodeFrameCommand d i := fun hp i => by
    obtain ⟨_, _, hplen, hpayload⟩ := hframe hp
    rw [decodeFrameCommand, decodeFrameCommand, hplen, hpayload]
  obtain h | h | h | h | h | ⟨i, hi, h⟩ := op_cases c.op
  · rw [decode_row_crcbyte h, decode_row_crcbyte (hop ▸ h), hb (.inl h)]
  · rw [decode_row_feed h, decode_row_feed (hop ▸ h), hb (.inr h)]
  · have hp : opHasPayload c.op = true := h ▸ rfl
    obtain ⟨hty, hseq, _, hpayload⟩ := hframe hp
    rw [decode_row_encode h, decode_row_encode (hop ▸ h), hlength hp, hty, hseq, hpayload]
  · have hp : opHasPayload c.op = true := h ▸ rfl
    obtain ⟨hty, hseq, _, hpayload⟩ := hframe hp
    rw [decode_row_fcrc h, decode_row_fcrc (hop ▸ h), hlength hp, hty, hseq, hpayload]
  · have hp : opHasPayload c.op = true := h ▸ rfl
    obtain ⟨hty, hseq, _, hpayload⟩ := hframe hp
    rw [decode_row_fverify h, decode_row_fverify (hop ▸ h), hlength hp, hty, hseq, hpayload, hcrc h]
  · rw [decode_row_operandFree hi h, decode_row_operandFree hi (hop ▸ h)]

/-- Settles O4: decoded exactly when well-formed, and the one error otherwise. -/
theorem decodeRefusesOnlyLengthMismatch : Obligations.DecodeRefusesOnlyLengthMismatch := by
  intro c
  refine ⟨?_, exists_decode_eq_ok_iff c⟩
  rw [decode_eq_error_iff, exists_decode_eq_ok_iff, PortCommand.wellFormed_iff, Classical.not_imp]

/-- Settles O5: the eleven operand-free rows, the two rows with a byte, and the three frame rows, which pass the length
check. -/
theorem opcodeMapRows : Obligations.OpcodeMapRows := by
  intro b ty seq plen payload crc hplen c
  have hfree : ∀ i ∈ operandFreeCommands, decode (c (encode i).op) = .ok i := fun i hi => decode_row_operandFree hi rfl
  exact ⟨hfree .nop (by decide), hfree .clear (by decide), hfree .crcinit (by decide),
    decode_row_crcbyte rfl, decode_row_feed rfl, hfree .take (by decide),
    (decode_row_encode rfl).trans (decodeFrameCommand_of_plen _ hplen),
    (decode_row_fcrc rfl).trans (decodeFrameCommand_of_plen _ hplen),
    (decode_row_fverify rfl).trans (decodeFrameCommand_of_plen _ hplen),
    hfree .reserved9 (by decide), hfree .reservedA (by decide), hfree .reservedB (by decide),
    hfree .reservedC (by decide), hfree .reservedD (by decide), hfree .reservedE (by decide),
    hfree .reservedF (by decide)⟩

/-- Settles O6: the decoder evaluated on the seven words. -/
theorem specProgramWordsDecode : Obligations.SpecProgramWordsDecode :=
  ⟨rfl, rfl, rfl, rfl, rfl, rfl, rfl⟩

end

/-! ## Runs of CRCBYTE, and DRAIN -/

namespace Sys2Proof.Machine

/-- CRCBYTES (R87): the bytes enter the register in order, and each command is one OK. -/
theorem runInstrs_crcBytesCommands (bs : Bytes) (s : State) :
    ∃ t, runInstrs (crcBytesCommands bs) s = .next t ∧ t.crcReg = crcFrom s.crcReg bs ∧ t.rxBuf = s.rxBuf ∧
      t.responses = s.responses ++ List.replicate bs.length .ok := by
  induction bs generalizing s with
  | nil => exact ⟨s, rfl, rfl, rfl, (List.append_nil _).symm⟩
  | cons b bs ih =>
    obtain ⟨t, hrun, hcrc, hbuf, hresp⟩ := ih (afterCommand (.crcbyte b) s)
    refine ⟨t, (runInstrs_of_next _ (exec_of_wellFormed s rfl)).trans hrun, hcrc, hbuf, ?_⟩
    rw [hresp, afterCommand_responses, List.append_assoc]
    rfl

/-- A pass that returns a frame consumes its header and its CRC field at least (R61, R124). -/
theorem takePass_frame_length {b rest : Bytes} {f : Frame} (h : takePass b = .frame f rest) :
    rest.length + MIN_FRAME ≤ b.length := by
  obtain ⟨_, e⟩ | ⟨_, _, e⟩ | ⟨k, tail, _, _, hd, e⟩ := takePass_cases b <;> rw [h] at e
  · cases e
  · cases e
  · have hl : (MAGIC0 :: MAGIC1 :: tail).length ≤ b.length := hd ▸ (List.drop_suffix k b).length_le
    obtain ⟨_, e'⟩ | ⟨_, _, e'⟩ | ⟨_, _, _, e'⟩ | ⟨_, htotal, e'⟩ := syncPass_cases (MAGIC0 :: MAGIC1 :: tail) <;>
      rw [← e] at e' <;> cases e'
    simp only [List.length_drop, HDR_eq, CRC_LEN_eq, MIN_FRAME_eq] at htotal ⊢
    omega

/-- A TAKE that returns a frame shortens the buffer by at least 12 bytes (R61, R124). -/
theorem takeBuf_frame_length {b : Bytes} {f : Frame} (h : (takeBuf b).1 = some f) :
    (takeBuf b).2.length + MIN_FRAME ≤ b.length := by
  obtain ⟨b', hs, ⟨hnone, _⟩ | ⟨g, _, hp⟩⟩ := takeLoop_last_pass (takeLoop_eq_takeBuf b)
  · simp [h] at hnone
  · exact (takePass_frame_length hp).trans hs.length_le

/-- DRAIN goes on after a frame and ends after NEED_MORE (R87). -/
theorem drainWithin_succ (n : Nat) (s : State) :
    drainWithin (n + 1) s =
      if (takeBuf s.rxBuf).1 = none then .next (afterCommand .take s) else drainWithin n (afterCommand .take s) := by
  rw [drainWithin, exec_of_wellFormed s rfl]
  cases hf : (takeBuf s.rxBuf).1 <;> simp [afterCommand, responseOf, hf, takeResponse]

/-- More TAKEs than the buffer holds shortest frames are enough for DRAIN (R87). -/
theorem drainWithin_ends {n : Nat} {s : State} (h : s.rxBuf.length / MIN_FRAME < n) :
    ∃ t, drainWithin n s = .next t ∧ t.lastResponse = some .needMore ∧ t.crcReg = s.crcReg ∧ t.inputs = s.inputs := by
  induction n generalizing s with
  | zero => exact absurd h (Nat.not_lt_zero _)
  | succ n ih =>
    rw [drainWithin_succ]
    cases hf : (takeBuf s.rxBuf).1 with
    | none => exact ⟨afterCommand .take s, rfl, by simp [afterCommand, responseOf, hf, takeResponse], rfl, rfl⟩
    | some f =>
      have hshorter : (afterCommand .take s).rxBuf.length + 12 ≤ s.rxBuf.length := takeBuf_frame_length hf
      exact ih (by rw [MIN_FRAME_eq] at h ⊢; omega)

end Sys2Proof.Machine

/-! ## The wire frame, field by field -/

namespace Sys2Proof.Machine

theorem slice_append_append (a b c : Bytes) : slice (a ++ b ++ c) a.length (a.length + b.length) = b := by
  simp [slice, List.append_assoc]

theorem byteAt_append_length_add (a b : Bytes) (i : Nat) : byteAt (a ++ b) (a.length + i) = byteAt b i := by
  rw [byteAt, List.getD_append_right _ _ _ _ (Nat.le_add_right _ _), Nat.add_sub_cancel_left]
  rfl

/-- The ten bytes before the payload (R60): marker, version, type, sequence, length. -/
def frameHeader (ty : Byte) (seq : U32) (n : Nat) : Bytes :=
  [MAGIC0, MAGIC1, VERSION, ty] ++ bytes32le seq ++ bytes16le (BitVec.ofNat 16 n)

@[simp] theorem frameHeader_length (ty : Byte) (seq : U32) (n : Nat) : (frameHeader ty seq n).length = 10 := rfl

/-- A frame is header, payload and CRC field (R60). -/
theorem encodeFrame_eq (ty : Byte) (seq : U32) (payload : Bytes) :
    encodeFrame ty seq payload =
      frameHeader ty seq payload.length ++ payload ++ bytes16le (frameCrc ty seq payload) := by
  simp [encodeFrame, frameBody, frameHeader]

/-- The length field holds every length a payload may have (R65). -/
theorem length_field_toNat {n : Nat} (h : n ≤ 65535) : (BitVec.ofNat 16 n).toNat = n :=
  Nat.mod_eq_of_lt (Nat.lt_succ_of_le h)

/-- The CRC covers the frame's bytes from 2 up to its CRC field (R62). -/
theorem slice_encodeFrame_body (ty : Byte) (seq : U32) (payload : Bytes) :
    slice (encodeFrame ty seq payload) 2 (10 + payload.length) = frameBody ty seq payload := by
  have h := slice_append_append [MAGIC0, MAGIC1] (frameBody ty seq payload) (bytes16le (frameCrc ty seq payload))
  rw [frameBody_length] at h
  rwa [encodeFrame, show 10 + payload.length = [MAGIC0, MAGIC1].length + (payload.length + 8) by simp; omega]

theorem slice_encodeFrame_payload (ty : Byte) (seq : U32) (payload : Bytes) :
    slice (encodeFrame ty seq payload) 10 (10 + payload.length) = payload := by
  rw [encodeFrame_eq]
  exact slice_append_append (frameHeader ty seq payload.length) payload _

/-- The last two bytes are the CRC field, low byte first (R65). -/
theorem le16_encodeFrame_crc (ty : Byte) (seq : U32) (payload : Bytes) :
    le16 (byteAt (encodeFrame ty seq payload) (10 + payload.length))
      (byteAt (encodeFrame ty seq payload) (11 + payload.length)) = frameCrc ty seq payload := by
  have hfield (i : Nat) : byteAt (encodeFrame ty seq payload) (10 + payload.length + i) =
      byteAt (bytes16le (frameCrc ty seq payload)) i := by
    have h := byteAt_append_length_add (frameHeader ty seq payload.length ++ payload)
      (bytes16le (frameCrc ty seq payload)) i
    rwa [List.length_append, frameHeader_length, ← encodeFrame_eq] at h
  rw [show 11 + payload.length = 10 + payload.length + 1 by omega]
  exact (congrArg₂ le16 (hfield 0) (hfield 1)).trans (le16_bytes16le _)

theorem bytes16le_injective : Function.Injective bytes16le := by
  intro v w h
  simp only [bytes16le, List.cons.injEq, and_true] at h
  obtain ⟨hlow, hhigh⟩ := h
  rw [← le16_bytes16le v, hlow, hhigh, le16_bytes16le]

theorem bytes32le_injective : Function.Injective bytes32le := by
  intro v w h
  simp only [bytes32le, List.cons.injEq, and_true] at h
  obtain ⟨h0, h1, h2, h3⟩ := h
  rw [← le32_bytes32le v, h0, h1, h2, h3, le32_bytes32le]

/-- A header determines its fields (R60). -/
theorem frameHeader_inj {ty ty' : Byte} {seq seq' : U32} {n n' : Nat} (hn : n ≤ 65535) (hn' : n' ≤ 65535)
    (h : frameHeader ty seq n = frameHeader ty' seq' n') : ty = ty' ∧ seq = seq' ∧ n = n' := by
  obtain ⟨hfront, hlen⟩ := List.append_inj h rfl
  obtain ⟨hty, hseq⟩ := List.append_inj hfront rfl
  refine ⟨by simpa using hty, bytes32le_injective hseq, ?_⟩
  rw [← length_field_toNat hn, bytes16le_injective hlen, length_field_toNat hn']

end Sys2Proof.Machine

section

open Sys2Proof Sys2Proof.Machine

/-- Settles O13: `responseOf` command by command; FEED's branch, TAKE's frame and ENCODE's length carry the bounds. -/
theorem responsesByCommand : Obligations.ResponsesByCommand := by
  refine ⟨fun _ _ _ _ => ⟨rfl, rfl, rfl, rfl, rfl, rfl, rfl, rfl⟩, fun i s t h => ?_⟩
  obtain ⟨hw, rfl⟩ := exec_eq_next.mp h
  refine ⟨responseOf i s.rxBuf, rfl, ?_⟩
  cases i with
  | feed b =>
    by_cases hroom : s.rxBuf.length < BUF_CAP
    · exact .inl (if_pos hroom)
    · exact .inr ⟨if_neg hroom, Nat.not_lt.mp hroom⟩
  | take =>
    cases hf : (takeBuf s.rxBuf).1 with
    | none => exact .inl (congrArg takeResponse hf)
    | some f => exact .inr ⟨f, congrArg takeResponse hf, takeBuf_payload_length_le hf⟩
  | encode ty seq payload =>
    have hp : payload.length ≤ 65535 := of_decide_eq_true hw
    have hl := encodeFrame_length ty seq payload
    exact ⟨_, rfl, by omega, by omega⟩
  | fcrc ty seq payload => exact ⟨_, rfl⟩
  | fverify ty seq payload crc => exact ⟨_, rfl⟩
  | _ => rfl

/-- Settles O28: CRCINIT's state, then the bytes by induction. -/
theorem crcPseudoCommand : Obligations.CrcPseudoCommand := by
  intro bs s
  obtain ⟨t, hrun, hcrc, hbuf, hresp⟩ := runInstrs_crcBytesCommands bs (afterCommand .crcinit s)
  refine ⟨t, (runInstrs_of_next _ (exec_of_wellFormed s rfl)).trans hrun, hcrc, hbuf, ?_⟩
  rw [hresp, afterCommand_responses, List.append_assoc]
  rfl

/-- Settles O35: the header's ten bytes evaluated, then the payload, the CRC field and what it covers. -/
theorem frameLayout : Obligations.FrameLayout := by
  intro ty seq payload hp f n
  have hlength : f.length = 12 + n := (encodeFrame_length ty seq payload).trans (Nat.add_comm _ _)
  have hcrc : frameCrc ty seq payload = crc16 (slice f 2 (10 + n)) :=
    (congrArg crc16 (slice_encodeFrame_body ty seq payload)).symm
  exact ⟨hlength, rfl, rfl, rfl, rfl, le32_bytes32le seq,
    (congrArg BitVec.toNat (le16_bytes16le _)).trans (length_field_toNat hp),
    slice_encodeFrame_payload ty seq payload, (le16_encodeFrame_crc ty seq payload).trans hcrc⟩

/-- Settles O37: the headers have equal lengths and so are equal, hence the payloads have, and then the CRC fields. -/
theorem framesAreUniquelyDecodable : Obligations.FramesAreUniquelyDecodable := by
  intro ty ty' seq seq' p p' x y hp hp' h
  rw [encodeFrame_eq, encodeFrame_eq, List.append_assoc, List.append_assoc, List.append_assoc, List.append_assoc] at h
  obtain ⟨hheader, hafter⟩ := List.append_inj h rfl
  obtain ⟨rfl, rfl, hlen⟩ := frameHeader_inj hp hp' hheader
  obtain ⟨rfl, hafter⟩ := List.append_inj hafter hlen
  exact ⟨rfl, rfl, rfl, (List.append_inj hafter rfl).2⟩

/-- Settles O53: each TAKE before the last removes a frame of at least 12 bytes. -/
theorem drainEndsWithNeedMore : Obligations.DrainEndsWithNeedMore :=
  fun s => drainWithin_ends (Nat.lt_succ_self (s.rxBuf.length / MIN_FRAME))

end

/-! ## The CRC of a run of commands

CRCBYTE takes its byte into the register, CRCINIT starts again, and no other command touches the register (R22, R95). -/

namespace Sys2Proof.Machine

theorem crcInput_cons (i : Instr) (is : List Instr) : crcInput (i :: is) = crcInput [i] ++ crcInput is :=
  List.filterMap_append (l := [i])

/-- What a command other than CRCINIT does to the register: it takes in the byte of a CRCBYTE (R22, R94). -/
theorem crcAfter_eq_crcFrom {i : Instr} (hinit : i ≠ .crcinit) (c : U16) :
    crcAfter i c = crcFrom c (crcInput [i]) := by
  cases i with
  | crcinit => exact absurd rfl hinit
  | _ => rfl

/-- A run without CRCINIT takes the bytes of its CRCBYTEs into the register, in order (R95). -/
theorem runInstrs_crcReg {is : List Instr} {s t : State} (hinit : .crcinit ∉ is) (h : runInstrs is s = .next t) :
    t.crcReg = crcFrom s.crcReg (crcInput is) := by
  induction is generalizing s with
  | nil =>
    obtain rfl := runInstrs_nil_eq_next.mp h
    rfl
  | cons i is ih =>
    obtain ⟨hi, his⟩ := List.ne_and_not_mem_of_not_mem_cons hinit
    obtain ⟨_, hexec, hrest⟩ := runInstrs_cons_eq_next.mp h
    obtain ⟨_, rfl⟩ := exec_eq_next.mp hexec
    rw [ih his hrest, afterCommand_crcReg, crcAfter_eq_crcFrom hi.symm, ← crcFrom_append, ← crcInput_cons]

end Sys2Proof.Machine

/-! ## The CRC is linear in register and bytes together, and injective in each byte

Linearity is that of the shift (`crcShift_xor`), byte by byte. Injectivity is the reason that R96 gives for a single-bit
error: POLY has a constant term, so a shift leaves in bit 0 whether it fed back, and no shift loses anything. -/

namespace Sys2Proof.Machine

theorem crcShifts_eq_iterate (n : Nat) (c : U16) : crcShifts n c = crcShift^[n] c := by
  induction n generalizing c with
  | zero => rfl
  | succ n ih => exact ih (crcShift c)

/-- Where the byte step puts its byte, it puts the XOR of two bytes as the XOR of both (R90). -/
theorem byte_in_top_xor (a b : Byte) :
    (a ^^^ b).zeroExtend 16 <<< 8 = (a.zeroExtend 16 <<< 8 ^^^ b.zeroExtend 16 <<< 8 : U16) := by
  rw [BitVec.zeroExtend_eq_setWidth, BitVec.setWidth_xor, BitVec.shiftLeft_xor_distrib]

theorem crcStep_xor (c d : U16) (a b : Byte) : crcStep (c ^^^ d) (a ^^^ b) = crcStep c a ^^^ crcStep d b := by
  rw [crcStep, crcStep, crcStep, ← crcShifts_xor, byte_in_top_xor]
  congr 1
  ac_rfl

/-- The CRC of a bytewise XOR of equally long sequences, from the XOR of two registers (R96). -/
theorem crcFrom_zipWith_xor (c d : U16) {a e : Bytes} (h : a.length = e.length) :
    crcFrom (c ^^^ d) (List.zipWith (· ^^^ ·) a e) = crcFrom c a ^^^ crcFrom d e := by
  induction a generalizing c d e with
  | nil =>
    obtain rfl := List.length_eq_zero_iff.mp h.symm
    rfl
  | cons x a ih =>
    obtain ⟨y, e, rfl⟩ := List.exists_cons_of_length_eq_add_one h.symm
    rw [List.zipWith_cons_cons, crcFrom_cons, crcStep_xor, ih _ _ (Nat.succ.inj h), crcFrom_cons, crcFrom_cons]

theorem crcShift_of_top_set {c : U16} (h : c.getLsbD 15 = true) : crcShift c = c <<< 1 ^^^ POLY :=
  if_pos h

theorem crcShift_of_top_clear {c : U16} (h : c.getLsbD 15 = false) : crcShift c = c <<< 1 :=
  if_neg (by rw [h]; exact Bool.false_ne_true)

/-- POLY has a constant term: bit 0 after a shift is the bit that was shifted out (R96). -/
theorem crcShift_getLsbD_zero (c : U16) : (crcShift c).getLsbD 0 = c.getLsbD 15 := by
  cases h : c.getLsbD 15 with
  | false => simp [crcShift_of_top_clear h]
  | true => simp [crcShift_of_top_set h, POLY]

theorem crcShift_injective : Function.Injective crcShift := by
  intro c d h
  have htop : c.getLsbD 15 = d.getLsbD 15 := by rw [← crcShift_getLsbD_zero, h, crcShift_getLsbD_zero]
  have hlow : c <<< 1 = d <<< 1 := by
    cases hd : d.getLsbD 15 with
    | false => rwa [crcShift_of_top_clear (htop.trans hd), crcShift_of_top_clear hd] at h
    | true =>
      rw [crcShift_of_top_set (htop.trans hd), crcShift_of_top_set hd] at h
      exact (BitVec.xor_left_inj POLY).mp h
  refine BitVec.eq_of_getLsbD_eq fun i hi => ?_
  obtain rfl | hnext : i = 15 ∨ i + 1 < 16 := by omega
  · exact htop
  · simpa [hi, hnext] using congrArg (·.getLsbD (i + 1)) hlow

theorem crcShifts_injective (n : Nat) : Function.Injective (crcShifts n) := by
  rw [funext (crcShifts_eq_iterate n)]
  exact crcShift_injective.iterate n

/-- For a given byte, the byte step loses nothing of the register. -/
theorem crcStep_register_injective (b : Byte) : Function.Injective (crcStep · b) := fun _ _ h =>
  (BitVec.xor_left_inj _).mp (crcShifts_injective 8 h)

/-- For a given register, the byte step loses nothing of the byte. -/
theorem crcStep_byte_injective (c : U16) : Function.Injective (crcStep c) := by
  intro a b h
  have hplaced : (a.zeroExtend 16 <<< 8 : U16) = b.zeroExtend 16 <<< 8 :=
    (BitVec.xor_right_inj _).mp (crcShifts_injective 8 h)
  refine BitVec.eq_of_getLsbD_eq fun i hi => ?_
  simpa [hi, show 8 + i < 16 by omega] using congrArg (·.getLsbD (8 + i)) hplaced

theorem crcFrom_register_injective (bs : Bytes) : Function.Injective (crcFrom · bs) := by
  induction bs with
  | nil => exact Function.injective_id
  | cons b bs ih => exact ih.comp (crcStep_register_injective b)

/-- Changing one byte of a sequence in any way changes its CRC. -/
theorem crcFrom_one_byte_injective (c : U16) (as bs : Bytes) :
    Function.Injective fun x => crcFrom c (as ++ x :: bs) := by
  intro x y h
  simp only [crcFrom_append, crcFrom_cons] at h
  exact crcStep_byte_injective _ (crcFrom_register_injective bs h)

theorem flipBit_eq_append {bs : Bytes} {i : Nat} (j : Nat) (h : i < bs.length) :
    flipBit bs i j = bs.take i ++ (bs[i] ^^^ 1#8 <<< j) :: bs.drop (i + 1) :=
  List.modify_eq_take_cons_drop h

/-- Flipping a bit of a byte changes the byte. -/
theorem flipped_byte_ne (x : Byte) {j : Nat} (hj : j < 8) : x ^^^ 1#8 <<< j ≠ x := by
  intro h
  have hbit := congrArg (·.getLsbD j) h
  simp [hj] at hbit

end Sys2Proof.Machine

section

open Sys2Proof Sys2Proof.Machine

/-- Settles O27: CRCINIT's register value, then the run of the other commands. -/
theorem incrementalCrcIsTheFunction : Obligations.IncrementalCrcIsTheFunction := by
  intro is s t hinit h
  rw [runInstrs_of_next is (exec_of_wellFormed s rfl)] at h
  exact runInstrs_crcReg hinit h

/-- Settles O30: linearity from the registers 0xFFFF and 0. -/
theorem crcIsAffine : Obligations.CrcIsAffine :=
  fun _ _ h => crcFrom_zipWith_xor CRC_INIT 0 h

/-- Settles O31: the flipped byte differs from the byte, and the CRC tells any two bytes at one place apart. -/
theorem singleBitErrorChangesTheCrc : Obligations.SingleBitErrorChangesTheCrc := by
  intro bs i j hi hj h
  have hsplit : bs.take i ++ bs[i] :: bs.drop (i + 1) = bs := by simp
  have hcrc : crcFrom CRC_INIT (bs.take i ++ (bs[i] ^^^ 1#8 <<< j) :: bs.drop (i + 1)) =
      crcFrom CRC_INIT (bs.take i ++ bs[i] :: bs.drop (i + 1)) := by
    rw [← flipBit_eq_append j hi, hsplit]
    exact h
  exact flipped_byte_ne bs[i] hj (crcFrom_one_byte_injective CRC_INIT _ _ hcrc)

/-- Settles O24: the register and the response, evaluated. -/
theorem crcinitResult : Obligations.CrcinitResult :=
  fun _ => rfl

/-- Settles O25: the eight shifts are an iterate of the one shift. -/
theorem crcbyteResult : Obligations.CrcbyteResult := by
  intro b s shift
  have hstep : crcStep s.crcReg b = shift^[8] (s.crcReg ^^^ (b.zeroExtend 16 <<< 8)) := crcShifts_eq_iterate 8 _
  rw [← hstep]
  rfl

/-- Settles O26: the fold's two ends. -/
theorem crcOfASequence : Obligations.CrcOfASequence :=
  ⟨rfl, fun bs b => crcFrom_append CRC_INIT bs [b]⟩

end

/-! ## The frame commands' length check -/

namespace Sys2Proof.Machine

/-- A payload that is too long is refused (R106). -/
theorem respondIfFormed_of_gt {payload : Bytes} (r : Response) (s : State) (h : MAX_PAYLOAD < payload.length) :
    respondIfFormed payload r s = .refused .payloadTooLong :=
  if_neg (Nat.not_le.mpr h)

end Sys2Proof.Machine

/-! ## TAKE on a frame that is complete and on one that is not

A buffer that starts with the marker needs one pass of TAKE's loop when it holds version 1: the pass returns the frame
if all its bytes are there (R122 to R124) and waits if they are not (R118, R121). -/

namespace Sys2Proof.Machine

theorem takeBuf_of_needMore {b rest : Bytes} (h : takePass b = .needMore rest) : takeBuf b = (none, rest) := by
  rw [takeBuf, takeLoop_succ, h, Option.getD_some]

theorem takeBuf_of_frame {b rest : Bytes} {f : Frame} (h : takePass b = .frame f rest) :
    takeBuf b = (some f, rest) := by
  rw [takeBuf, takeLoop_succ, h, Option.getD_some]

theorem takePass_of_length_lt_two {b : Bytes} (h : b.length < 2) : takePass b = .needMore b :=
  if_pos h

/-- On a buffer that starts with the marker there is nothing to discard (R116). -/
theorem takePass_marker (tail : Bytes) :
    takePass (MAGIC0 :: MAGIC1 :: tail) = syncPass (MAGIC0 :: MAGIC1 :: tail) := by
  simp [takePass]

/-- Steps 4 and 6 (R118, R121): the pass waits while the header is not there, and then while the frame that the header
declares is not. -/
theorem syncPass_of_incomplete {b : Bytes}
    (h : HDR ≤ b.length → byteAt b 2 = VERSION ∧ b.length < HDR + declaredLength b + CRC_LEN) :
    syncPass b = .needMore b := by
  obtain ⟨_, e⟩ | ⟨hheader, hversion, _⟩ | ⟨_, _, _, e⟩ | ⟨_, hlong, _⟩ := syncPass_cases b
  · exact e
  · exact absurd (h hheader).1 hversion
  · exact e
  · have hheader : HDR ≤ b.length := by omega
    exact absurd (h hheader).2 (Nat.not_lt.mpr hlong)

/-- Step 7 (R122): the pass returns the frame as soon as all its declared bytes are there. -/
theorem syncPass_of_complete {b : Bytes} (hversion : byteAt b 2 = VERSION)
    (hlong : HDR + declaredLength b + CRC_LEN ≤ b.length) :
    syncPass b = .frame (extractFrame b (declaredLength b)) (b.drop (HDR + declaredLength b + CRC_LEN)) := by
  obtain ⟨hshort, _⟩ | ⟨_, hne, _⟩ | ⟨_, _, hshort, _⟩ | ⟨_, _, e⟩ := syncPass_cases b
  · omega
  · exact absurd hversion hne
  · omega
  · exact e

theorem byteAt_append_left {a : Bytes} (b : Bytes) {i : Nat} (h : i < a.length) : byteAt (a ++ b) i = byteAt a i :=
  List.getD_append _ _ _ _ h

/-- The declared length is in the header, whatever follows it (R65). -/
theorem declaredLength_append {a : Bytes} (b : Bytes) (h : HDR ≤ a.length) :
    declaredLength (a ++ b) = declaredLength a := by
  rw [HDR_eq] at h
  rw [declaredLength, declaredLength, byteAt_append_left b (by omega), byteAt_append_left b (by omega)]

theorem declaredLength_frameHeader (ty : Byte) (seq : U32) {n : Nat} (h : n ≤ 65535) :
    declaredLength (frameHeader ty seq n) = n :=
  (congrArg BitVec.toNat (le16_bytes16le _)).trans (length_field_toNat h)

/-! `anyFrame` is `encodeFrame` with a CRC field of its own (R60). -/

theorem encodeFrame_eq_anyFrame (ty : Byte) (seq : U32) (payload : Bytes) :
    encodeFrame ty seq payload = anyFrame ty seq payload (frameCrc ty seq payload) := rfl

theorem anyFrame_eq (ty : Byte) (seq : U32) (payload : Bytes) (crc : U16) :
    anyFrame ty seq payload crc = frameHeader ty seq payload.length ++ payload ++ bytes16le crc := by
  simp [anyFrame, frameBody, frameHeader]

@[simp] theorem anyFrame_length (ty : Byte) (seq : U32) (payload : Bytes) (crc : U16) :
    (anyFrame ty seq payload crc).length = payload.length + 12 := by
  simp [anyFrame]

theorem declaredLength_anyFrame (ty : Byte) (seq : U32) {payload : Bytes} (crc : U16) (h : payload.length ≤ 65535) :
    declaredLength (anyFrame ty seq payload crc) = payload.length := by
  rw [anyFrame_eq, List.append_assoc, declaredLength_append _ (frameHeader_length ..).ge,
    declaredLength_frameHeader ty seq h]

/-- Step 7 reads a frame's fields back (R122), and compares its CRC field with the CRC of its body (R123). -/
theorem extractFrame_anyFrame (ty : Byte) (seq : U32) (payload : Bytes) (crc : U16) (rest : Bytes) :
    extractFrame (anyFrame ty seq payload crc ++ rest) payload.length =
      { ty := ty, seq := seq, payload := payload, crcValid := crcMatches crc (frameCrc ty seq payload) } := by
  have hbody : slice (anyFrame ty seq payload crc ++ rest) 2 (HDR + payload.length) = frameBody ty seq payload := by
    have h := slice_append_append [MAGIC0, MAGIC1] (frameBody ty seq payload) (bytes16le crc ++ rest)
    rw [frameBody_length, ← List.append_assoc] at h
    rwa [anyFrame, HDR_eq, show 10 + payload.length = [MAGIC0, MAGIC1].length + (payload.length + 8) by simp; omega]
  have hpayload : slice (anyFrame ty seq payload crc ++ rest) HDR (HDR + payload.length) = payload := by
    rw [anyFrame_eq, List.append_assoc]
    exact slice_append_append (frameHeader ty seq payload.length) payload _
  have hfield (i : Nat) : byteAt (anyFrame ty seq payload crc ++ rest) (HDR + payload.length + i) =
      byteAt (bytes16le crc ++ rest) i := by
    have h := byteAt_append_length_add (frameHeader ty seq payload.length ++ payload) (bytes16le crc ++ rest) i
    rwa [List.length_append, frameHeader_length, ← List.append_assoc, ← anyFrame_eq] at h
  have hcrc : le16 (byteAt (anyFrame ty seq payload crc ++ rest) (HDR + payload.length))
      (byteAt (anyFrame ty seq payload crc ++ rest) (HDR + payload.length + 1)) = crc :=
    (congrArg₂ le16 (hfield 0) (hfield 1)).trans (le16_bytes16le crc)
  rw [extractFrame, hpayload, hcrc, hbody]
  exact congrArg (Frame.mk ty · payload _) (le32_bytes32le seq)

/-- TAKE returns a complete frame whatever its CRC field, and consumes exactly its bytes (R122 to R124). -/
theorem takeBuf_anyFrame_append (ty : Byte) (seq : U32) {payload : Bytes} (crc : U16) (rest : Bytes)
    (h : payload.length ≤ 65535) :
    takeBuf (anyFrame ty seq payload crc ++ rest) =
      (some { ty := ty, seq := seq, payload := payload, crcValid := crcMatches crc (frameCrc ty seq payload) },
        rest) := by
  have hlength : HDR + payload.length + CRC_LEN = (anyFrame ty seq payload crc).length := by
    rw [anyFrame_length, HDR_eq, CRC_LEN_eq]
    omega
  have hdeclared : declaredLength (anyFrame ty seq payload crc ++ rest) = payload.length := by
    rw [declaredLength_append rest (by omega), declaredLength_anyFrame ty seq crc h]
  have hpass := syncPass_of_complete (b := anyFrame ty seq payload crc ++ rest) rfl
    (by rw [hdeclared, hlength, List.length_append]; exact Nat.le_add_right _ _)
  rw [hdeclared, extractFrame_anyFrame, hlength, List.drop_left] at hpass
  exact takeBuf_of_frame ((takePass_marker _).trans hpass)

theorem length_lt_of_missing_bytes {ty : Byte} {seq : U32} {payload : Bytes} {crc : U16} {here missing : Bytes}
    (h : here ++ missing = anyFrame ty seq payload crc) (hmissing : missing ≠ []) :
    here.length < payload.length + 12 := by
  have hpos := List.length_pos_of_ne_nil hmissing
  have hlength := congrArg List.length h
  rw [List.length_append, anyFrame_length] at hlength
  omega

/-- A buffer of any capacity that R10 allows has room for the rest of a frame. -/
theorem room_for_missing_bytes {ty : Byte} {seq : U32} {payload : Bytes} {crc : U16} {here missing : Bytes}
    (hp : payload.length ≤ 65535) (h : here ++ missing = anyFrame ty seq payload crc) (hmissing : missing ≠ []) :
    here.length < BUF_CAP := by
  have hshort := length_lt_of_missing_bytes h hmissing
  have hcap := MAX_FRAME_le_BUF_CAP
  omega

/-- TAKE leaves a frame of which bytes are missing as it is (R114, R118, R121). -/
theorem takeBuf_of_missing_bytes {ty : Byte} {seq : U32} {payload : Bytes} {crc : U16} {here missing : Bytes}
    (hp : payload.length ≤ 65535) (h : here ++ missing = anyFrame ty seq payload crc) (hmissing : missing ≠ []) :
    takeBuf here = (none, here) := by
  apply takeBuf_of_needMore
  have hshort := length_lt_of_missing_bytes h hmissing
  match here with
  | [] => exact takePass_of_length_lt_two Nat.zero_lt_two
  | [x] => exact takePass_of_length_lt_two (Nat.lt_succ_self 1)
  | x :: y :: tail =>
    obtain ⟨rfl, htail⟩ := List.cons.inj h
    obtain ⟨rfl, _⟩ := List.cons.inj htail
    rw [takePass_marker]
    refine syncPass_of_incomplete fun hheader => ⟨?_, ?_⟩
    · rw [← byteAt_append_left missing (Nat.lt_of_lt_of_le (by decide) hheader), h]
      rfl
    · rw [← declaredLength_append missing hheader, h, declaredLength_anyFrame ty seq crc hp, HDR_eq, CRC_LEN_eq]
      omega

end Sys2Proof.Machine

/-! ## Runs of FEED and TAKE within one frame -/

namespace Sys2Proof.Machine

theorem exec_take_of_takeBuf {s : State} {f : Option Frame} {rest : Bytes} (h : takeBuf s.rxBuf = (f, rest)) :
    exec .take s = .next ((s.setRxBuf rest).respond (takeResponse f)) := by
  rw [exec_take, h]

/-- The response to a FEED or a TAKE while bytes of the frame are missing (R107). -/
def responseWithinFrame (i : Instr) : Response :=
  if i = .take then .needMore else .ok

/-- While the bytes fed are only a part of a frame, every FEED is accepted and every TAKE waits, so the buffer is the
part that was fed (R107). -/
theorem runInstrs_within_frame {ty : Byte} {seq : U32} {payload : Bytes} {crc : U16} {js : List Instr} {s : State}
    {missing : Bytes} (hp : payload.length ≤ 65535) (hjs : ∀ i ∈ js, i = .take ∨ ∃ b, i = .feed b)
    (h : s.rxBuf ++ fedBytes js ++ missing = anyFrame ty seq payload crc) (hmissing : missing ≠ []) :
    runInstrs js s = .next { s with
      rxBuf := s.rxBuf ++ fedBytes js
      responses := s.responses ++ js.map responseWithinFrame } := by
  induction js generalizing s with
  | nil => simp [runInstrs, fedBytes]
  | cons i js ih =>
    obtain ⟨hi, hrest⟩ := List.forall_mem_cons.mp hjs
    have hwire : s.rxBuf ++ (fedBytes (i :: js) ++ missing) = anyFrame ty seq payload crc :=
      (List.append_assoc ..).symm.trans h
    have hmore : fedBytes (i :: js) ++ missing ≠ [] := List.append_ne_nil_of_right_ne_nil _ hmissing
    obtain rfl | ⟨b, rfl⟩ := hi
    · have hwait : exec .take s = .next (s.respond .needMore) :=
        exec_take_of_takeBuf (takeBuf_of_missing_bytes hp hwire hmore)
      rw [runInstrs_of_next js hwait, ih (s := s.respond .needMore) hrest h]
      simp [fedBytes, responseWithinFrame]
    · have haccept : exec (.feed b) s = .next ((s.setRxBuf (s.rxBuf ++ [b])).respond .ok) :=
        execFeed_of_room b (room_for_missing_bytes hp hwire hmore)
      have hnext : s.rxBuf ++ [b] ++ fedBytes js ++ missing = anyFrame ty seq payload crc := by
        rw [List.append_assoc s.rxBuf]
        exact h
      rw [runInstrs_of_next js haccept, ih hrest hnext]
      simp [fedBytes, responseWithinFrame]

/-- The FEED of a frame's last byte completes it, and the next TAKE returns it (R107, R122). -/
theorem runInstrs_last_byte {ty : Byte} {seq : U32} {payload : Bytes} {crc : U16} {s : State} {last : Byte}
    (hp : payload.length ≤ 65535) (h : s.rxBuf ++ [last] = anyFrame ty seq payload crc) :
    runInstrs [.feed last, .take] s = .next { s with
      rxBuf := []
      responses := s.responses ++
        [.ok, .frame
          { ty := ty, seq := seq, payload := payload, crcValid := crcMatches crc (frameCrc ty seq payload) }] } := by
  have haccept : exec (.feed last) s = .next ((s.setRxBuf (s.rxBuf ++ [last])).respond .ok) :=
    execFeed_of_room last (room_for_missing_bytes hp h (List.cons_ne_nil _ _))
  have htake := takeBuf_anyFrame_append ty seq crc [] hp
  rw [List.append_nil, ← h] at htake
  rw [runInstrs_of_next _ haccept, runInstrs_of_next _ (exec_take_of_takeBuf htake)]
  simp [runInstrs, State.respond, State.setRxBuf, takeResponse]

theorem fedBytes_append_feed (js : List Instr) (b : Byte) : fedBytes (js ++ [.feed b]) = fedBytes js ++ [b] :=
  List.filterMap_append

end Sys2Proof.Machine

section

open Sys2Proof Sys2Proof.Machine

/-- Settles O52: within the frame every FEED is accepted and every TAKE waits; its last byte completes it. -/
theorem encodedFrameRoundTrip : Obligations.EncodedFrameRoundTrip := by
  intro ty seq payload s js last hp hempty hjs hfed
  have hwire : s.rxBuf ++ fedBytes js ++ [last] = anyFrame ty seq payload (frameCrc ty seq payload) := by
    rw [hempty, List.nil_append, ← fedBytes_append_feed, hfed, encodeFrame_eq_anyFrame]
  rw [runInstrs_append_of_next _ (runInstrs_within_frame hp hjs hwire (List.cons_ne_nil _ _)),
    runInstrs_last_byte hp hwire]
  simp [hempty, crcMatches, responseWithinFrame]

/-- Settles O36: all four commands answer from `frameCrc`, TAKE because it reads the CRC field back and compares it. -/
theorem helpersAgreeWithTheWire : Obligations.HelpersAgreeWithTheWire := by
  intro ty seq payload crc s hp
  have htake := takeBuf_anyFrame_append ty seq crc [] hp
  rw [List.append_nil] at htake
  refine ⟨respondIfFormed_of_le _ s hp, respondIfFormed_of_le _ s hp, ?_, crcMatches crc (frameCrc ty seq payload),
    respondIfFormed_of_le _ s hp, exec_take_of_takeBuf (s := { s with rxBuf := anyFrame ty seq payload crc }) htake⟩
  rw [encodeFrame_eq]
  exact List.drop_left' (by rw [List.length_append, frameHeader_length])

/-- Settles O8: at the port by the decoder, as a term by the length check of the three meanings. -/
theorem illFormedFrameCommandIsRefused : Obligations.IllFormedFrameCommandIsRefused :=
  ⟨fun _ c _ hin hop hne => step_of_command_error hin ((decodeRefusesOnlyLengthMismatch c).1.mpr ⟨hop, hne⟩),
    fun _ _ _ _ s hlong =>
      ⟨respondIfFormed_of_gt _ s hlong, respondIfFormed_of_gt _ s hlong, respondIfFormed_of_gt _ s hlong⟩⟩

/-- Settles O32: a payload that can be formed passes the length check, and the frame is `encodeFrame` written out. -/
theorem encodeResult : Obligations.EncodeResult :=
  fun _ _ _ s hp => respondIfFormed_of_le _ s hp

/-- Settles O33: as ENCODE, with `frameCrc` written out. -/
theorem fcrcResult : Obligations.FcrcResult :=
  fun _ _ _ s hp => respondIfFormed_of_le _ s hp

/-- Settles O34: as ENCODE, with `crcMatches` and `frameCrc` written out. -/
theorem fverifyResult : Obligations.FverifyResult :=
  fun _ _ _ _ s hp => respondIfFormed_of_le _ s hp

end

/-! ## The host's FEEDS, DRAIN and RECV on the receive buffer

A host procedure that has room for its bytes is a function of the receive buffer: FEEDS appends, and DRAIN takes frames
until the first NEED_MORE. `drained` and `drainChunks` are these functions; `recv_of_room` and `recvChunks_of_room` tie
them to the procedures of R87 and R130. -/

namespace Sys2Proof.Machine

/-- The frames of a DRAIN and the buffer it leaves, with as many TAKEs as R87 allows it. -/
def drained (b : Bytes) : List Frame × Bytes :=
  drainBuf (b.length / 12 + 1) b

theorem drainBuf_succ_of_needMore {b rest : Bytes} (n : Nat) (h : takeBuf b = (none, rest)) :
    drainBuf (n + 1) b = ([], rest) := by
  rw [drainBuf, h]

theorem drainBuf_succ_of_frame {b rest : Bytes} {f : Frame} (n : Nat) (h : takeBuf b = (some f, rest)) :
    drainBuf (n + 1) b = (f :: (drainBuf n rest).1, (drainBuf n rest).2) := by
  rw [drainBuf, h]

/-- A frame shortens the buffer so much that one TAKE less is enough for the rest (R61, R124). -/
theorem length_div_lt_of_frame {b rest : Bytes} {f : Frame} {n : Nat} (h : takeBuf b = (some f, rest))
    (hn : b.length / 12 < n + 1) : rest.length / 12 < n := by
  have hshorter := takeBuf_frame_length (congrArg Prod.fst h)
  simp only [h, MIN_FRAME_eq] at hshorter
  omega

/-- More TAKEs than R87 allows change nothing: DRAIN has ended before. -/
theorem drainBuf_eq_drained {n : Nat} {b : Bytes} (h : b.length / 12 < n) : drainBuf n b = drained b := by
  suffices hindep : ∀ m, b.length / 12 < m → drainBuf n b = drainBuf m b from hindep _ (Nat.lt_succ_self _)
  induction n generalizing b with
  | zero => exact absurd h (Nat.not_lt_zero _)
  | succ n ih =>
    intro m hm
    obtain ⟨m, rfl⟩ := Nat.exists_eq_succ_of_ne_zero (Nat.ne_zero_of_lt hm)
    match ht : takeBuf b with
    | (none, rest) => rw [drainBuf_succ_of_needMore n ht, drainBuf_succ_of_needMore m ht]
    | (some f, rest) =>
      rw [drainBuf_succ_of_frame n ht, drainBuf_succ_of_frame m ht,
        ih (length_div_lt_of_frame ht h) m (length_div_lt_of_frame ht hm)]

theorem drained_of_needMore {b rest : Bytes} (h : takeBuf b = (none, rest)) : drained b = ([], rest) :=
  drainBuf_succ_of_needMore _ h

theorem drained_of_frame {b rest : Bytes} {f : Frame} (h : takeBuf b = (some f, rest)) :
    drained b = (f :: (drained rest).1, (drained rest).2) := by
  rw [drained, drainBuf_succ_of_frame _ h, drainBuf_eq_drained (length_div_lt_of_frame h (Nat.lt_succ_self _))]

/-- Induction along a DRAIN: a buffer on which TAKE answers NEED_MORE, or one on which it answers a frame and for whose
rest the statement holds. -/
theorem drain_induction {motive : Bytes → Prop} (needMore : ∀ b rest, takeBuf b = (none, rest) → motive b)
    (frame : ∀ b f rest, takeBuf b = (some f, rest) → motive rest → motive b) (b : Bytes) : motive b := by
  induction hn : b.length using Nat.strong_induction_on generalizing b with
  | _ n ih =>
    match ht : takeBuf b with
    | (none, rest) => exact needMore b rest ht
    | (some f, rest) =>
      have hshorter := takeBuf_frame_length (congrArg Prod.fst ht)
      simp only [ht, MIN_FRAME_eq] at hshorter
      exact frame b f rest ht (ih rest.length (by omega) rest rfl)

theorem suffix_of_takeBuf {b rest : Bytes} {f : Option Frame} (h : takeBuf b = (f, rest)) : rest <:+ b := by
  simpa only [h] using takeBuf_suffix b

/-- DRAIN removes bytes only at the front (R23). -/
theorem drained_suffix (b : Bytes) : (drained b).2 <:+ b := by
  induction b using drain_induction with
  | needMore b rest h =>
    rw [drained_of_needMore h]
    exact suffix_of_takeBuf h
  | frame b f rest h ih =>
    rw [drained_of_frame h]
    exact ih.trans (suffix_of_takeBuf h)

theorem framesIn_append (rs qs : List Response) : framesIn (rs ++ qs) = framesIn rs ++ framesIn qs :=
  List.filterMap_append

theorem framesIn_replicate_ok (n : Nat) : framesIn (List.replicate n .ok) = [] :=
  List.filterMap_eq_nil_iff.mpr fun r hr => by rw [List.eq_of_mem_replicate hr]

/-- DRAIN's responses carry the frames that `drained` lists, and its buffer is the one `drained` leaves (R87). -/
theorem drain_eq_drained (s : State) :
    ∃ t, drain s = .next t ∧ t.rxBuf = (drained s.rxBuf).2 ∧
      framesIn t.responses = framesIn s.responses ++ (drained s.rxBuf).1 := by
  suffices hwithin : ∀ n, s.rxBuf.length / 12 < n → ∃ t, drainWithin n s = .next t ∧ t.rxBuf = (drained s.rxBuf).2 ∧
      framesIn t.responses = framesIn s.responses ++ (drained s.rxBuf).1 from hwithin _ (Nat.lt_succ_self _)
  intro n hn
  induction n generalizing s with
  | zero => exact absurd hn (Nat.not_lt_zero _)
  | succ n ih =>
    rw [drainWithin_succ]
    match ht : takeBuf s.rxBuf with
    | (none, rest) =>
      refine ⟨afterCommand .take s, if_pos rfl, ?_, ?_⟩
      · rw [drained_of_needMore ht]
        exact congrArg Prod.snd ht
      · rw [drained_of_needMore ht, afterCommand_responses, framesIn_append, responseOf, ht]
        rfl
    | (some f, rest) =>
      have hrest : (afterCommand .take s).rxBuf = rest := congrArg Prod.snd ht
      obtain ⟨t, hrun, hbuf, hframes⟩ :=
        ih (afterCommand .take s) (by rw [hrest]; exact length_div_lt_of_frame ht hn)
      rw [hrest] at hbuf hframes
      refine ⟨t, (if_neg (Option.some_ne_none f)).trans hrun, ?_, ?_⟩
      · rw [hbuf, drained_of_frame ht]
      · rw [hframes, drained_of_frame ht, afterCommand_responses, framesIn_append, responseOf, ht, List.append_assoc]
        rfl

/-- FEEDS within capacity: every byte is accepted and appended (R87, R110). -/
theorem feeds_of_room {bs : Bytes} {s : State} (h : s.rxBuf.length + bs.length ≤ BUF_CAP) :
    feeds bs s = .next ({ s with
      rxBuf := s.rxBuf ++ bs
      responses := s.responses ++ List.replicate bs.length .ok }, []) := by
  induction bs generalizing s with
  | nil => simp [feeds]
  | cons b bs ih =>
    rw [List.length_cons] at h
    have haccept : exec (.feed b) s = .next ((s.setRxBuf (s.rxBuf ++ [b])).respond .ok) :=
      execFeed_of_room b (by omega)
    have hroom : ((s.setRxBuf (s.rxBuf ++ [b])).respond .ok).rxBuf.length + bs.length ≤ BUF_CAP := by
      simp
      omega
    rw [feeds, haccept]
    simp [ih hroom, List.replicate_succ]

/-- RECV within capacity: FEEDS takes every byte, and DRAIN works on the longer buffer (R87). -/
theorem recv_of_room {bs : Bytes} {s : State} (h : s.rxBuf.length + bs.length ≤ BUF_CAP) :
    ∃ t, recv bs s = .next (t, []) ∧ t.rxBuf = (drained (s.rxBuf ++ bs)).2 ∧
      framesIn t.responses = framesIn s.responses ++ (drained (s.rxBuf ++ bs)).1 := by
  obtain ⟨t, hrun, hbuf, hframes⟩ := drain_eq_drained { s with
    rxBuf := s.rxBuf ++ bs
    responses := s.responses ++ List.replicate bs.length .ok }
  refine ⟨t, ?_, hbuf, ?_⟩
  · rw [recv, feeds_of_room h]
    simp only [hrun]
  · simpa [framesIn_append, framesIn_replicate_ok] using hframes

/-- RECV of one chunk after another, on the buffer alone (R130): the frames of all DRAINs, and the buffer left. -/
def drainChunks : List Bytes → Bytes → List Frame × Bytes
  | [], b => ([], b)
  | c :: cs, b =>
    ((drained (b ++ c)).1 ++ (drainChunks cs (drained (b ++ c)).2).1, (drainChunks cs (drained (b ++ c)).2).2)

/-- A host that receives in chunks, within capacity (R130). -/
theorem recvChunks_of_room {chunks : List Bytes} {s : State} (h : s.rxBuf.length + chunks.flatten.length ≤ BUF_CAP) :
    ∃ t, recvChunks chunks s = .next (t, []) ∧ t.rxBuf = (drainChunks chunks s.rxBuf).2 ∧
      framesIn t.responses = framesIn s.responses ++ (drainChunks chunks s.rxBuf).1 := by
  induction chunks generalizing s with
  | nil => exact ⟨s, rfl, rfl, (List.append_nil _).symm⟩
  | cons c cs ih =>
    rw [List.flatten_cons, List.length_append] at h
    obtain ⟨t, hrun, hbuf, hframes⟩ := recv_of_room (bs := c) (s := s) (by omega)
    have hshorter : t.rxBuf.length ≤ s.rxBuf.length + c.length := by
      rw [hbuf, ← List.length_append]
      exact (drained_suffix _).length_le
    obtain ⟨u, hrun', hbuf', hframes'⟩ := ih (s := t) (by omega)
    refine ⟨u, ?_, ?_, ?_⟩
    · simp only [recvChunks, hrun, if_true, hrun']
    · rw [hbuf', hbuf, drainChunks]
    · rw [hframes', hframes, hbuf, drainChunks, List.append_assoc]

end Sys2Proof.Machine

/-! ## A stream of complete frames, cut anywhere (R130 (i))

Whatever part of the stream has come in, DRAIN has returned the frames that are complete in it and keeps the beginning of
the next one. -/

namespace Sys2Proof.Machine

/-- The bytes of some frames on the wire, one frame after the other: type, sequence, payload and CRC field of each. -/
def wireOf (fs : List (Byte × U32 × Bytes × U16)) : Bytes :=
  fs.flatMap fun f => anyFrame f.1 f.2.1 f.2.2.1 f.2.2.2

/-- A frame as TAKE reports it (R122, R123). -/
def receivedFrame (f : Byte × U32 × Bytes × U16) : Frame :=
  ⟨f.1, f.2.1, f.2.2.1, decide (f.2.2.2 = frameCrc f.1 f.2.1 f.2.2.1)⟩

theorem wireOf_cons (f : Byte × U32 × Bytes × U16) (fs : List (Byte × U32 × Bytes × U16)) :
    wireOf (f :: fs) = anyFrame f.1 f.2.1 f.2.2.1 f.2.2.2 ++ wireOf fs := rfl

theorem wireOf_eq_nil {fs : List (Byte × U32 × Bytes × U16)} (h : wireOf fs = []) : fs = [] := by
  cases fs with
  | nil => rfl
  | cons f fs => exact absurd h (List.cons_ne_nil _ _)

/-- Of a stream that goes on with `unit`, either a part of `unit` is here and its end is missing, or all of it is. -/
theorem missing_end_or_complete {here missing unit after : Bytes} (h : here ++ missing = unit ++ after) :
    (∃ absent, absent ≠ [] ∧ here ++ absent = unit ∧ missing = absent ++ after) ∨
    (∃ more, here = unit ++ more ∧ more ++ missing = after) := by
  obtain ⟨absent, hunit, hmissing⟩ | ⟨more, hhere, hafter⟩ := List.append_eq_append_iff.mp h
  · by_cases hnil : absent = []
    · exact .inr ⟨[], by simpa [hnil] using hunit.symm, by simpa [hnil] using hmissing⟩
    · exact .inl ⟨absent, hnil, hunit.symm, hmissing⟩
  · exact .inr ⟨more, hhere, hafter.symm⟩

/-- DRAIN on the part `here` of a stream of frames of which `missing` is still to come. If nothing is missing, no frame
is left over. -/
theorem drained_of_part_of_wire {fs : List (Byte × U32 × Bytes × U16)} (hp : ∀ f ∈ fs, f.2.2.1.length ≤ 65535)
    {here missing : Bytes} (h : here ++ missing = wireOf fs) :
    ∃ done later rest, fs = done ++ later ∧ drained here = (done.map receivedFrame, rest) ∧
      rest ++ missing = wireOf later ∧ (missing = [] → later = []) := by
  induction fs generalizing here with
  | nil =>
    obtain ⟨rfl, rfl⟩ := List.append_eq_nil_iff.mp h
    exact ⟨[], [], [], rfl, rfl, rfl, fun _ => rfl⟩
  | cons f fs ih =>
    obtain ⟨hf, hfs⟩ := List.forall_mem_cons.mp hp
    rw [wireOf_cons] at h
    obtain ⟨absent, hne, hunit, rfl⟩ | ⟨more, rfl, hmore⟩ := missing_end_or_complete h
    · refine ⟨[], f :: fs, here, rfl, drained_of_needMore (takeBuf_of_missing_bytes hf hunit hne), h, fun hnil => ?_⟩
      exact absurd (List.append_eq_nil_iff.mp hnil).1 hne
    · obtain ⟨done, later, rest, rfl, hdrain, hrest, hend⟩ := ih hfs hmore
      refine ⟨f :: done, later, rest, rfl, ?_, hrest, hend⟩
      rw [drained_of_frame (takeBuf_anyFrame_append f.1 f.2.1 f.2.2.2 more hf), hdrain]
      rfl

/-- Every chunk goes on where the one before ended: within the first frame that is not complete. -/
theorem drainChunks_wire {chunks : List Bytes} {fs : List (Byte × U32 × Bytes × U16)} {b : Bytes}
    (hp : ∀ f ∈ fs, f.2.2.1.length ≤ 65535) (h : b ++ chunks.flatten = wireOf fs)
    (hend : chunks.flatten = [] → fs = []) : drainChunks chunks b = (fs.map receivedFrame, []) := by
  induction chunks generalizing b fs with
  | nil =>
    obtain rfl := hend rfl
    obtain rfl : b = [] := (List.append_eq_nil_iff.mp h).1
    rfl
  | cons c cs ih =>
    rw [List.flatten_cons, ← List.append_assoc] at h
    obtain ⟨done, later, rest, rfl, hdrain, hrest, hend'⟩ := drained_of_part_of_wire hp h
    have hlater := ih (fun f hf => hp f (List.mem_append_right _ hf)) hrest hend'
    rw [drainChunks, hdrain, hlater, List.map_append]

end Sys2Proof.Machine

section

open Sys2Proof Sys2Proof.Machine

/-- Settles O54: the frames that are complete in what has come in are returned, by induction on the chunks. -/
theorem completeFramesSurviveAnyChunking : Obligations.CompleteFramesSurviveAnyChunking := by
  intro fs chunks s hp hempty hwire hcap
  obtain ⟨t, hrun, hbuf, hframes⟩ :=
    recvChunks_of_room (chunks := chunks) (s := s) (by rw [hempty, List.length_nil, Nat.zero_add]; exact hcap)
  have hall : drainChunks chunks [] = (fs.map receivedFrame, []) :=
    drainChunks_wire hp hwire fun hnil => wireOf_eq_nil (hwire.symm.trans hnil)
  rw [hempty, hall] at hbuf hframes
  exact ⟨t, hrun, hbuf, hframes⟩

end

/-! ## The marker search

A marker is two different bytes, so no two of them overlap (R117), and the search finds the leftmost one. -/

namespace Sys2Proof.Machine

theorem not_markerAt_nil (k : Nat) : ¬ MarkerAt [] k :=
  fun h => nomatch h.1

theorem not_markerAt_singleton (x : Byte) (k : Nat) : ¬ MarkerAt [x] k :=
  fun h => nomatch h.2

theorem markerAt_cons_cons_zero (x y : Byte) (b : Bytes) :
    MarkerAt (x :: y :: b) 0 ↔ x = MAGIC0 ∧ y = MAGIC1 := by
  simp [MarkerAt]

theorem markerAt_marker (b : Bytes) : MarkerAt (MAGIC0 :: MAGIC1 :: b) 0 :=
  ⟨rfl, rfl⟩

theorem markerAt_drop (b : Bytes) (j k : Nat) : MarkerAt (b.drop j) k ↔ MarkerAt b (j + k) := by
  simp only [MarkerAt, List.getElem?_drop, Nat.add_assoc]

theorem markerAt_append_length_add (a b : Bytes) (k : Nat) : MarkerAt (a ++ b) (a.length + k) ↔ MarkerAt b k := by
  rw [← markerAt_drop, List.drop_left]

/-- What follows two bytes does not change whether they are a marker. -/
theorem markerAt_append_left {a : Bytes} (b : Bytes) {k : Nat} (h : k + 1 < a.length) :
    MarkerAt (a ++ b) k ↔ MarkerAt a k := by
  rw [MarkerAt, List.getElem?_append_left h, List.getElem?_append_left (Nat.lt_of_succ_lt h)]

theorem markerAt_zero_iff {b : Bytes} : MarkerAt b 0 ↔ ∃ tail, b = MAGIC0 :: MAGIC1 :: tail := by
  constructor
  · intro h
    match b with
    | [] => exact absurd h (not_markerAt_nil 0)
    | [x] => exact absurd h (not_markerAt_singleton x 0)
    | x :: y :: tail =>
      obtain ⟨rfl, rfl⟩ := (markerAt_cons_cons_zero x y tail).mp h
      exact ⟨tail, rfl⟩
  · rintro ⟨tail, rfl⟩
    exact markerAt_marker tail

/-- Markers do not overlap: the second byte of one is not the first of another (R117). -/
theorem not_markerAt_succ {b : Bytes} {k : Nat} (h : MarkerAt b k) : ¬ MarkerAt b (k + 1) :=
  fun h' => MAGIC0_ne_MAGIC1 (Option.some.inj (h'.1.symm.trans h.2))

theorem markerAt_two_apart {b : Bytes} {j k : Nat} (hj : MarkerAt b j) (hk : MarkerAt b k) (hjk : j < k) :
    j + 2 ≤ k := by
  have hne : k ≠ j + 1 := by
    rintro rfl
    exact not_markerAt_succ hj hk
  omega

theorem findMarker_cons_cons_of_not {x y : Byte} {b : Bytes} (h : ¬ MarkerAt (x :: y :: b) 0) :
    findMarker (x :: y :: b) = (findMarker (y :: b)).map (· + 1) :=
  if_neg fun hm => h ((markerAt_cons_cons_zero x y b).mpr hm)

theorem findMarker_of_markerAt_zero {b : Bytes} (h : MarkerAt b 0) : findMarker b = some 0 := by
  obtain ⟨tail, rfl⟩ := markerAt_zero_iff.mp h
  exact findMarker_marker tail

theorem findMarker_of_no_marker {b : Bytes} (h : ∀ k, ¬ MarkerAt b k) : findMarker b = none := by
  induction b with
  | nil => rfl
  | cons x b ih =>
    cases b with
    | nil => rfl
    | cons y b => rw [findMarker_cons_cons_of_not (h 0), ih fun k => h (k + 1), Option.map_none]

theorem findMarker_of_leftmost {b : Bytes} {k : Nat} (h : MarkerAt b k) (hfirst : ∀ j, j < k → ¬ MarkerAt b j) :
    findMarker b = some k := by
  induction k generalizing b with
  | zero => exact findMarker_of_markerAt_zero h
  | succ k ih =>
    match b with
    | [] => exact absurd h (not_markerAt_nil _)
    | [x] => exact absurd h (not_markerAt_singleton x _)
    | x :: y :: b =>
      have hrest : findMarker (y :: b) = some k := ih h fun j hj => hfirst (j + 1) (Nat.succ_lt_succ hj)
      rw [findMarker_cons_cons_of_not (hfirst 0 (Nat.succ_pos k)), hrest, Option.map_some]

/-- A buffer has no marker, or a leftmost one. -/
theorem no_marker_or_leftmost (b : Bytes) :
    (∀ k, ¬ MarkerAt b k) ∨ ∃ k, MarkerAt b k ∧ ∀ j, j < k → ¬ MarkerAt b j := by
  by_cases h : ∃ k, MarkerAt b k
  · exact .inr ⟨Nat.find h, Nat.find_spec h, fun j hj => Nat.find_min h hj⟩
  · exact .inl fun k hk => h ⟨k, hk⟩

theorem findMarker_eq_none_iff (b : Bytes) : findMarker b = none ↔ ∀ k, ¬ MarkerAt b k := by
  refine ⟨fun h => ?_, findMarker_of_no_marker⟩
  obtain hnone | ⟨k, hk, hfirst⟩ := no_marker_or_leftmost b
  · exact hnone
  · exact nomatch h.symm.trans (findMarker_of_leftmost hk hfirst)

theorem findMarker_eq_some_iff (b : Bytes) (k : Nat) :
    findMarker b = some k ↔ MarkerAt b k ∧ ∀ j, j < k → ¬ MarkerAt b j := by
  refine ⟨fun h => ?_, fun ⟨hk, hfirst⟩ => findMarker_of_leftmost hk hfirst⟩
  obtain hnone | ⟨l, hl, hfirst⟩ := no_marker_or_leftmost b
  · exact nomatch h.symm.trans (findMarker_of_no_marker hnone)
  · obtain rfl : k = l := Option.some.inj (h.symm.trans (findMarker_of_leftmost hl hfirst))
    exact ⟨hl, hfirst⟩

end Sys2Proof.Machine

/-! ## TAKE, step by step

One equation of `takeBuf` for each of TAKE's steps 2 to 6; step 1 is `takePass_of_length_lt_two`, and step 7 is
`takeBuf_anyFrame_append`. -/

namespace Sys2Proof.Machine

/-- A pass that restarts leaves the rest of the work to a TAKE on what it left (R120). -/
theorem takeBuf_of_restart {b rest : Bytes} (h : takePass b = .restart rest) : takeBuf b = takeBuf rest := by
  have hshorter := takePass_restart_length h
  obtain ⟨m, hm⟩ : ∃ m, b.length / 2 = rest.length / 2 + 1 + m := Nat.exists_eq_add_of_le (by omega)
  have hloop := takeLoop_eq_takeBuf b
  rw [takeLoop_succ, h, hm] at hloop
  exact Option.some.inj (hloop.symm.trans (takeLoop_add (takeLoop_eq_takeBuf rest) m))

/-- TAKE is determined by its first pass. -/
theorem takeBuf_congr_of_takePass {b c : Bytes} (h : takePass b = takePass c) : takeBuf b = takeBuf c := by
  cases hc : takePass c with
  | needMore rest => rw [takeBuf_of_needMore (h.trans hc), takeBuf_of_needMore hc]
  | restart rest => rw [takeBuf_of_restart (h.trans hc), takeBuf_of_restart hc]
  | frame f rest => rw [takeBuf_of_frame (h.trans hc), takeBuf_of_frame hc]

theorem takeBuf_of_length_lt_two {b : Bytes} (h : b.length < 2) : takeBuf b = (none, b) :=
  takeBuf_of_needMore (takePass_of_length_lt_two h)

/-- Step 2 (R115). -/
theorem takeBuf_of_no_marker {b : Bytes} (hlength : 2 ≤ b.length) (h : ∀ k, ¬ MarkerAt b k) :
    takeBuf b = (none, []) :=
  takeBuf_of_needMore (by rw [takePass, if_neg (Nat.not_lt.mpr hlength), findMarker_of_no_marker h])

theorem takeBuf_none_of_no_marker {b : Bytes} (h : ∀ k, ¬ MarkerAt b k) : (takeBuf b).1 = none := by
  obtain hshort | hlength := Nat.lt_or_ge b.length 2
  · rw [takeBuf_of_length_lt_two hshort]
  · rw [takeBuf_of_no_marker hlength h]

theorem two_le_length_of_markerAt {b : Bytes} {k : Nat} (h : MarkerAt b k) : k + 2 ≤ b.length :=
  (List.getElem?_eq_some_iff.mp h.2).1

/-- Step 3 (R116): up to the leftmost marker the buffer could as well be empty. -/
theorem takeBuf_drop_of_leftmost {b : Bytes} {k : Nat} (h : MarkerAt b k) (hfirst : ∀ j, j < k → ¬ MarkerAt b j) :
    takeBuf b = takeBuf (b.drop k) := by
  have hlength := two_le_length_of_markerAt h
  obtain ⟨tail, htail⟩ := markerAt_zero_iff.mp ((markerAt_drop b k 0).mpr h)
  apply takeBuf_congr_of_takePass
  rw [htail, takePass_marker, ← htail, takePass, if_neg (by omega), findMarker_of_leftmost h hfirst]

/-- Step 3 (R116), with the discarded bytes named. -/
theorem takeBuf_noise_append {noise b : Bytes} (hb : MarkerAt b 0)
    (hfirst : ∀ k, k < noise.length → ¬ MarkerAt (noise ++ b) k) : takeBuf (noise ++ b) = takeBuf b := by
  rw [takeBuf_drop_of_leftmost ((markerAt_append_length_add noise b 0).mpr hb) hfirst, Nat.add_zero, List.drop_left]

/-- Steps 4 and 6 (R118, R121): the marker waits for a header, and a header with version 1 for its frame. -/
theorem takeBuf_of_incomplete {b : Bytes} (hb : MarkerAt b 0)
    (h : HDR ≤ b.length → byteAt b 2 = VERSION ∧ b.length < HDR + declaredLength b + CRC_LEN) :
    takeBuf b = (none, b) := by
  obtain ⟨tail, rfl⟩ := markerAt_zero_iff.mp hb
  exact takeBuf_of_needMore ((takePass_marker tail).trans (syncPass_of_incomplete h))

/-- Step 5 (R120). -/
theorem takeBuf_of_wrong_version {v : Byte} {tail : Bytes} (hlength : 7 ≤ tail.length) (hv : v ≠ VERSION) :
    takeBuf (MAGIC0 :: MAGIC1 :: v :: tail) = takeBuf (v :: tail) := by
  apply takeBuf_of_restart
  have hheader : ¬ (MAGIC0 :: MAGIC1 :: v :: tail).length < HDR := by
    simp
    omega
  rw [takePass_marker, syncPass, if_neg hheader]
  exact if_pos hv

end Sys2Proof.Machine

section

open Sys2Proof Sys2Proof.Machine

/-- Settles O43: `findMarker` is the leftmost marker's offset, if there is one, and markers do not overlap. -/
theorem markerSearchIsLeftmost : Obligations.MarkerSearchIsLeftmost :=
  fun b => ⟨findMarker_eq_some_iff b, findMarker_eq_none_iff b, fun _ _ => markerAt_two_apart⟩

/-- Settles O41: steps 1 and 2. -/
theorem takeWithoutAMarker : Obligations.TakeWithoutAMarker :=
  fun _ => ⟨fun hshort => exec_take_of_takeBuf (takeBuf_of_length_lt_two hshort),
    fun hlength hnone => exec_take_of_takeBuf (takeBuf_of_no_marker hlength hnone)⟩

/-- Settles O42: step 3. -/
theorem takeDiscardsBytesBeforeTheMarker : Obligations.TakeDiscardsBytesBeforeTheMarker := by
  intro s k hk hfirst
  refine ⟨(markerAt_drop s.rxBuf k 0).mpr hk, ?_⟩
  rw [exec_take, takeBuf_drop_of_leftmost hk hfirst]
  rfl

/-- Settles O44: steps 4 and 6. -/
theorem takeWaitsForACompleteFrame : Obligations.TakeWaitsForACompleteFrame := by
  intro s tail hbuf
  have hmarker : MarkerAt s.rxBuf 0 := hbuf ▸ markerAt_marker tail
  refine ⟨fun hshort => exec_take_of_takeBuf (takeBuf_of_incomplete hmarker fun h => ?_),
    fun _ hversion hshort => exec_take_of_takeBuf (takeBuf_of_incomplete hmarker fun _ => ⟨hversion, ?_⟩)⟩
  · exact absurd hshort (Nat.not_lt.mpr h)
  · rw [declaredLength, HDR_eq, CRC_LEN_eq]
    omega

/-- Settles O45: step 5, and the markers behind the discarded one. -/
theorem takeSkipsAWrongVersion : Obligations.TakeSkipsAWrongVersion := by
  intro s v tail hbuf hlength hv
  have hmarker : MarkerAt s.rxBuf 0 := hbuf ▸ markerAt_marker (v :: tail)
  have htail : 7 ≤ tail.length := by
    simp only [hbuf, List.length_cons] at hlength
    omega
  refine ⟨?_, not_markerAt_succ hmarker, fun k => ?_⟩
  · have htake : takeBuf s.rxBuf = takeBuf (v :: tail) := hbuf ▸ takeBuf_of_wrong_version htail hv
    rw [exec_take, htake]
    rfl
  · rw [hbuf]
    exact Iff.rfl

/-- Settles O47: a restart drops the marker, and so the bound is never met. -/
theorem takeLoopEnds : Obligations.TakeLoopEnds :=
  ⟨fun _ _ => takePass_restart_length, fun b => takeLoop_ne_none (Nat.lt_succ_self (b.length / 2))⟩

/-- Settles O38: FEED's two branches. -/
theorem feedResult : Obligations.FeedResult :=
  fun b _ => ⟨execFeed_of_room b, fun hfull => execFeed_of_full b (Nat.not_lt.mp hfull)⟩

/-- Settles O39: the state after CLEAR, evaluated. -/
theorem clearResult : Obligations.ClearResult :=
  fun _ => rfl

end

/-! ## Frames given byte by byte

TAKE reads a frame as bytes, and `anyFrame` writes it from its fields; the two agree, since a field is the bytes it was
read from (R63 to R65). -/

namespace Sys2Proof.Machine

/-- Storing a 32-bit field that was read (R64). -/
theorem bytes32le_le32 (w x y z : Byte) : bytes32le (le32 w x y z) = [w, x, y, z] := by
  simp only [bytes32le, le32, List.cons.injEq, and_true]
  refine ⟨BitVec.eq_of_getLsbD_eq fun i hi => ?_, BitVec.eq_of_getLsbD_eq fun i hi => ?_,
    BitVec.eq_of_getLsbD_eq fun i hi => ?_, BitVec.eq_of_getLsbD_eq fun i hi => ?_⟩
  · simp [hi, show i < 32 by omega, show i < 24 by omega, show i < 16 by omega]
  · simp [hi, show 8 + i < 32 by omega, show 8 + i < 24 by omega, show 8 + i < 16 by omega]
  · simp [hi, show 16 + i < 32 by omega, show 16 + i < 24 by omega, show 16 + i - 8 = 8 + i by omega,
      BitVec.getLsbD_of_ge w (16 + i) (by omega)]
  · simp [hi, show 24 + i < 32 by omega, show 24 + i - 8 = 16 + i by omega, show 24 + i - 16 = 8 + i by omega,
      BitVec.getLsbD_of_ge w (24 + i) (by omega), BitVec.getLsbD_of_ge x (16 + i) (by omega)]

/-- The bytes that the CRC covers, as received (R62). -/
theorem headerTail_append_eq_frameBody (ty s0 s1 s2 s3 l0 l1 : Byte) {payload : Bytes}
    (h : payload.length = (le16 l0 l1).toNat) :
    headerTail VERSION ty s0 s1 s2 s3 l0 l1 ++ payload = frameBody ty (le32 s0 s1 s2 s3) payload := by
  rw [frameBody, bytes32le_le32, h, BitVec.ofNat_toNat, BitVec.setWidth_eq, bytes16le_le16]
  rfl

/-- A complete frame, as received (R60). -/
theorem frame_bytes_eq_anyFrame (ty s0 s1 s2 s3 l0 l1 c0 c1 : Byte) {payload : Bytes} (rest : Bytes)
    (h : payload.length = (le16 l0 l1).toNat) :
    MAGIC0 :: MAGIC1 :: (headerTail VERSION ty s0 s1 s2 s3 l0 l1 ++ payload ++ [c0, c1] ++ rest) =
      anyFrame ty (le32 s0 s1 s2 s3) payload (le16 c0 c1) ++ rest := by
  rw [headerTail_append_eq_frameBody ty s0 s1 s2 s3 l0 l1 h, anyFrame, bytes16le_le16]
  rfl

theorem le16_toNat_le (l0 l1 : Byte) : (le16 l0 l1).toNat ≤ 65535 :=
  Nat.le_of_lt_succ (le16 l0 l1).isLt

/-- Step 7 on a complete frame, as received (R122 to R124). -/
theorem takeBuf_frame_bytes (ty s0 s1 s2 s3 l0 l1 c0 c1 : Byte) {payload : Bytes} (rest : Bytes)
    (h : payload.length = (le16 l0 l1).toNat) :
    takeBuf (MAGIC0 :: MAGIC1 :: (headerTail VERSION ty s0 s1 s2 s3 l0 l1 ++ payload ++ [c0, c1] ++ rest)) =
      (some
        { ty := ty, seq := le32 s0 s1 s2 s3, payload := payload
          crcValid := decide (le16 c0 c1 = crc16 (headerTail VERSION ty s0 s1 s2 s3 l0 l1 ++ payload)) }, rest) := by
  have hp : payload.length ≤ 65535 := h ▸ le16_toNat_le l0 l1
  rw [frame_bytes_eq_anyFrame ty s0 s1 s2 s3 l0 l1 c0 c1 rest h, takeBuf_anyFrame_append _ _ _ _ hp,
    headerTail_append_eq_frameBody ty s0 s1 s2 s3 l0 l1 h]
  rfl

/-- Eight bytes after a marker are the rest of a header (R60). -/
theorem exists_headerTail {b : Bytes} (h : 8 ≤ b.length) :
    ∃ v ty s0 s1 s2 s3 l0 l1 tail, b = headerTail v ty s0 s1 s2 s3 l0 l1 ++ tail :=
  match b, h with
  | v :: ty :: s0 :: s1 :: s2 :: s3 :: l0 :: l1 :: tail, _ => ⟨v, ty, s0, s1, s2, s3, l0, l1, tail, rfl⟩

/-- Enough bytes after a header are a payload, a CRC field and a rest (R60, R61). -/
theorem exists_payload_crc {b : Bytes} {n : Nat} (h : n + 2 ≤ b.length) :
    ∃ payload c0 c1 rest, b = payload ++ [c0, c1] ++ rest ∧ payload.length = n := by
  have hdrop : 2 ≤ (b.drop n).length := by
    rw [List.length_drop]
    omega
  match hb : b.drop n, hdrop with
  | c0 :: c1 :: rest, _ =>
    refine ⟨b.take n, c0, c1, rest, ?_, List.length_take_of_le (by omega)⟩
    rw [List.append_assoc, List.cons_append, List.cons_append, List.nil_append, ← hb, List.take_append_drop]

theorem declaredLength_lt (b : Bytes) : declaredLength b < 65536 :=
  (le16 (byteAt b 8) (byteAt b 9)).isLt

end Sys2Proof.Machine

/-! ## TAKE's function and TAKE's rules

`TakeRule` is TAKE's relation, transcribed from R114 to R124. Every rule is an equation of `takeBuf`, and some rule
applies to every buffer, so `TakeRule` is the graph of `takeBuf`; an induction over the rules then is an induction along
one TAKE. -/

namespace Sys2Proof.Machine

theorem takeBuf_of_takeRule {b rest : Bytes} {f : Option Frame} (h : TakeRule b f rest) : takeBuf b = (f, rest) := by
  induction h with
  | short b hlength => exact takeBuf_of_length_lt_two hlength
  | noMarker b hlength hnone => exact takeBuf_of_no_marker hlength hnone
  | noise noise b f rest _ hmarker hfirst _ ih => rw [takeBuf_noise_append hmarker hfirst, ih]
  | shortHeader tail hlength =>
    exact takeBuf_of_incomplete (markerAt_marker tail) fun h =>
      absurd hlength (Nat.not_lt.mpr (Nat.le_of_succ_le_succ (Nat.le_of_succ_le_succ h)))
  | wrongVersion v tail f rest hlength hv _ ih => rw [takeBuf_of_wrong_version hlength hv, ih]
  | shortFrame ty s0 s1 s2 s3 l0 l1 tail hlength =>
    refine takeBuf_of_incomplete (markerAt_marker _) fun _ => ⟨rfl, ?_⟩
    change tail.length + 10 < 10 + (le16 l0 l1).toNat + 2
    omega
  | complete ty s0 s1 s2 s3 l0 l1 c0 c1 payload rest hlength =>
    exact takeBuf_frame_bytes ty s0 s1 s2 s3 l0 l1 c0 c1 rest hlength

/-- Steps 4 to 7 leave no buffer out; step 5 goes on with a shorter one. -/
theorem exists_takeRule_marker {tail : Bytes}
    (hshorter : ∀ b : Bytes, b.length < tail.length + 2 → ∃ f rest, TakeRule b f rest) :
    ∃ f rest, TakeRule (MAGIC0 :: MAGIC1 :: tail) f rest := by
  by_cases hheader : tail.length < 8
  · exact ⟨_, _, .shortHeader tail hheader⟩
  obtain ⟨v, ty, s0, s1, s2, s3, l0, l1, tail, rfl⟩ := exists_headerTail (Nat.not_lt.mp hheader)
  by_cases hv : v = VERSION
  · subst hv
    by_cases hlength : tail.length < (le16 l0 l1).toNat + 2
    · exact ⟨_, _, .shortFrame ty s0 s1 s2 s3 l0 l1 tail hlength⟩
    · obtain ⟨payload, c0, c1, rest, rfl, hp⟩ := exists_payload_crc (Nat.not_lt.mp hlength)
      have hrule := TakeRule.complete ty s0 s1 s2 s3 l0 l1 c0 c1 payload rest hp
      rw [List.append_assoc, List.append_assoc, ← List.append_assoc payload] at hrule
      exact ⟨_, _, hrule⟩
  · obtain ⟨f, rest, hrule⟩ :=
      hshorter (headerTail v ty s0 s1 s2 s3 l0 l1 ++ tail) (Nat.lt_add_of_pos_right Nat.two_pos)
    exact ⟨f, rest, .wrongVersion v _ f rest (Nat.le_add_left 7 tail.length) hv hrule⟩

/-- The steps leave no buffer out. -/
theorem exists_takeRule (b : Bytes) : ∃ f rest, TakeRule b f rest := by
  induction hn : b.length using Nat.strong_induction_on generalizing b with
  | _ n ih =>
    by_cases hlength : b.length < 2
    · exact ⟨_, _, .short b hlength⟩
    obtain hnone | ⟨k, hk, hfirst⟩ := no_marker_or_leftmost b
    · exact ⟨_, _, .noMarker b (Nat.not_lt.mp hlength) hnone⟩
    obtain ⟨tail, htail⟩ := markerAt_zero_iff.mp ((markerAt_drop b k 0).mpr hk)
    have hsplit : b.take k ++ MAGIC0 :: MAGIC1 :: tail = b := htail ▸ List.take_append_drop k b
    have htail_le : tail.length + 2 ≤ b.length := by
      rw [← hsplit, List.length_append]
      exact Nat.le_add_left _ _
    obtain ⟨f, rest, hrule⟩ := exists_takeRule_marker (tail := tail) fun c hc => ih c.length (by omega) c rfl
    cases k with
    | zero => exact ⟨f, rest, hsplit ▸ hrule⟩
    | succ k =>
      have htake : (b.take (k + 1)).length = k + 1 :=
        List.length_take_of_le (by have := two_le_length_of_markerAt hk; omega)
      have hnoise := TakeRule.noise (b.take (k + 1)) _ f rest (List.ne_nil_of_length_eq_add_one htake)
        (markerAt_marker tail) (by rw [htake, hsplit]; exact hfirst) hrule
      exact ⟨f, rest, hsplit ▸ hnoise⟩

theorem takeRule_of_takeBuf {b rest : Bytes} {f : Option Frame} (h : takeBuf b = (f, rest)) : TakeRule b f rest := by
  obtain ⟨g, q, hrule⟩ := exists_takeRule b
  obtain ⟨rfl, rfl⟩ := Prod.mk.inj (h.symm.trans (takeBuf_of_takeRule hrule))
  exact hrule

/-- `TakeRule` is the graph of `takeBuf`. -/
theorem takeRule_iff (b : Bytes) (f : Option Frame) (rest : Bytes) : TakeRule b f rest ↔ takeBuf b = (f, rest) :=
  ⟨takeBuf_of_takeRule, takeRule_of_takeBuf⟩

/-- What TAKE returns was on the wire (R127): the bytes before the frame are noise and markers with wrong versions. -/
theorem TakeRule.was_on_the_wire {b rest : Bytes} {o : Option Frame} {f : Frame} (h : TakeRule b o rest)
    (hf : o = some f) :
    ∃ crc gone, f.payload.length ≤ 65535 ∧ b = gone ++ anyFrame f.ty f.seq f.payload crc ++ rest ∧
      f.crcValid = decide (crc = frameCrc f.ty f.seq f.payload) := by
  induction h with
  | short | noMarker | shortHeader | shortFrame => cases hf
  | noise noise b _ rest _ _ _ _ ih =>
    obtain ⟨crc, gone, hp, rfl, hcrc⟩ := ih hf
    exact ⟨crc, noise ++ gone, hp, by simp only [List.append_assoc], hcrc⟩
  | wrongVersion v tail _ rest _ _ _ ih =>
    obtain ⟨crc, gone, hp, hb, hcrc⟩ := ih hf
    exact ⟨crc, MAGIC0 :: MAGIC1 :: gone, hp, by rw [hb]; rfl, hcrc⟩
  | complete ty s0 s1 s2 s3 l0 l1 c0 c1 payload rest hlength =>
    obtain rfl := (Option.some.inj hf).symm
    refine ⟨le16 c0 c1, [], hlength ▸ le16_toNat_le l0 l1,
      frame_bytes_eq_anyFrame ty s0 s1 s2 s3 l0 l1 c0 c1 rest hlength, ?_⟩
    rw [headerTail_append_eq_frameBody ty s0 s1 s2 s3 l0 l1 hlength]
    rfl

/-- NEED_MORE leaves one of the shapes of R29 (R128). -/
theorem TakeRule.waitingShape {b rest : Bytes} {o : Option Frame} (h : TakeRule b o rest) (hf : o = none) :
    WaitingShape rest := by
  induction h with
  | short b hlength => exact .inl (Nat.le_of_lt_succ hlength)
  | noMarker => exact .inl (Nat.zero_le 1)
  | noise _ _ _ _ _ _ _ _ ih => exact ih hf
  | shortHeader tail hlength =>
    exact .inr (.inl ⟨⟨tail, rfl⟩, Nat.le_add_left 2 tail.length, Nat.add_lt_add_right hlength 2⟩)
  | wrongVersion _ _ _ _ _ _ _ ih => exact ih hf
  | shortFrame ty s0 s1 s2 s3 l0 l1 tail hlength =>
    refine .inr (.inr ⟨⟨_, rfl⟩, Nat.le_add_left 10 tail.length, ?_⟩)
    change tail.length + 10 < 10 + (le16 l0 l1).toNat + 2
    omega
  | complete => cases hf

/-- On each of the shapes of R29 TAKE waits and keeps the buffer (R128). -/
theorem takeBuf_of_waitingShape {b : Bytes} (h : WaitingShape b) : takeBuf b = (none, b) := by
  obtain hshort | ⟨⟨tail, rfl⟩, _, hheader⟩ | ⟨⟨tail, rfl⟩, _, hframe⟩ := h
  · exact takeBuf_of_length_lt_two (Nat.lt_succ_of_le hshort)
  · exact takeBuf_of_incomplete (markerAt_marker tail) fun h => absurd hheader (Nat.not_lt.mpr h)
  · exact takeBuf_of_incomplete (markerAt_marker _) fun _ => ⟨rfl, hframe⟩

/-- A buffer that waits is shorter than the longest frame (R29, R61). -/
theorem length_lt_of_waitingShape {b : Bytes} (h : WaitingShape b) : b.length < MAX_FRAME := by
  have hn := declaredLength_lt b
  rw [MAX_FRAME_eq]
  simp only [WaitingShape, HDR_eq, CRC_LEN_eq] at h
  omega

end Sys2Proof.Machine

section

open Sys2Proof Sys2Proof.Machine

/-- Settles O40: `TakeRule` is the graph of TAKE's function. -/
theorem takeIsTheStepByStepAlgorithm : Obligations.TakeIsTheStepByStepAlgorithm := by
  intro s
  refine ⟨(takeBuf s.rxBuf).1, (takeBuf s.rxBuf).2, ?_, fun g q => ?_⟩
  · rw [exec_take]
    cases (takeBuf s.rxBuf).1 <;> rfl
  · rw [takeRule_iff, Prod.ext_iff, eq_comm (a := g), eq_comm (a := q)]

/-- Settles O46: step 7. -/
theorem takeReturnsACompleteFrame : Obligations.TakeReturnsACompleteFrame := by
  intro s ty s0 s1 s2 s3 l0 l1 c0 c1 payload rest hp hbuf
  exact exec_take_of_takeBuf
    ((congrArg takeBuf hbuf).trans (takeBuf_frame_bytes ty s0 s1 s2 s3 l0 l1 c0 c1 rest hp))

/-- Settles O48: by the two responses of a TAKE. -/
theorem takenFrameWasOnTheWire : Obligations.TakenFrameWasOnTheWire := by
  intro s t h
  obtain ⟨_, rfl⟩ := exec_eq_next.mp h
  match ht : takeBuf s.rxBuf with
  | (none, rest) =>
    obtain ⟨gone, hgone⟩ := takeBuf_suffix s.rxBuf
    refine .inl ⟨?_, gone, hgone.symm⟩
    simp [afterCommand, responseOf, ht, takeResponse]
  | (some f, rest) =>
    obtain ⟨crc, gone, hp, hwire, hcrc⟩ := (takeRule_of_takeBuf ht).was_on_the_wire rfl
    refine .inr ⟨f, crc, gone, ?_, hp, ?_, hcrc⟩
    · simp [afterCommand, responseOf, ht, takeResponse]
    · simpa [bufAfter, ht] using hwire

/-- Settles O49: NEED_MORE leaves a waiting shape, and a waiting shape is kept. -/
theorem needMoreIsStable : Obligations.NeedMoreIsStable := by
  intro s t h hlast
  obtain ⟨_, rfl⟩ := exec_eq_next.mp h
  have hresponse : takeResponse (takeBuf s.rxBuf).1 = .needMore := by
    simpa [afterCommand, responseOf] using hlast
  have hnone : (takeBuf s.rxBuf).1 = none := by
    cases hf : (takeBuf s.rxBuf).1 with
    | none => rfl
    | some f => simp [hf, takeResponse] at hresponse
  have hshape : WaitingShape (afterCommand .take s).rxBuf := (takeRule_of_takeBuf (Prod.ext hnone rfl)).waitingShape rfl
  exact ⟨hshape, exec_take_of_takeBuf (takeBuf_of_waitingShape hshape)⟩

/-- Settles O50: a frame shortens the buffer, and a buffer that waits is not full. -/
theorem takeOnAFullBufferMakesRoom : Obligations.TakeOnAFullBufferMakesRoom := by
  intro s hfull
  refine ⟨afterCommand .take s, exec_of_wellFormed s rfl, ?_⟩
  change (takeBuf s.rxBuf).2.length < s.rxBuf.length
  cases hf : (takeBuf s.rxBuf).1 with
  | none =>
    have hwaits := length_lt_of_waitingShape ((takeRule_of_takeBuf (Prod.ext hf rfl)).waitingShape rfl)
    rw [hfull]
    exact Nat.lt_of_lt_of_le hwaits MAX_FRAME_le_BUF_CAP
  | some f =>
    have hshorter := takeBuf_frame_length hf
    rw [MIN_FRAME_eq] at hshorter
    omega

end

/-! ## More bytes after a TAKE (R130 (ii))

A TAKE that returns a frame does not look behind it, so later bytes could as well have been there. After a NEED_MORE
they change only the decision of step 2, and only if they complete a marker whose first byte step 2 has discarded. -/

namespace Sys2Proof.Machine

/-- Noise before a marker is still noise before that marker when more bytes follow. -/
theorem no_marker_in_noise_append {noise b : Bytes} (q : Bytes) (hb : MarkerAt b 0)
    (hfirst : ∀ k, k < noise.length → ¬ MarkerAt (noise ++ b) k) :
    ∀ k, k < noise.length → ¬ MarkerAt (noise ++ (b ++ q)) k := by
  intro k hk
  have hlength := two_le_length_of_markerAt hb
  rw [← List.append_assoc, markerAt_append_left q (by rw [List.length_append]; omega)]
  exact hfirst k hk

theorem markerAt_zero_append {b : Bytes} (q : Bytes) (hb : MarkerAt b 0) : MarkerAt (b ++ q) 0 :=
  (markerAt_append_left q (two_le_length_of_markerAt hb)).mpr hb

/-- Step 3 discards the same noise when more bytes follow. -/
theorem takeBuf_noise_append_append {noise b : Bytes} (q : Bytes) (hb : MarkerAt b 0)
    (hfirst : ∀ k, k < noise.length → ¬ MarkerAt (noise ++ b) k) : takeBuf (noise ++ b ++ q) = takeBuf (b ++ q) := by
  rw [List.append_assoc]
  exact takeBuf_noise_append (markerAt_zero_append q hb) (no_marker_in_noise_append q hb hfirst)

/-- Step 5 discards the same marker when more bytes follow. -/
theorem takeBuf_of_wrong_version_append {v : Byte} {tail : Bytes} (q : Bytes) (hlength : 7 ≤ tail.length)
    (hv : v ≠ VERSION) : takeBuf (MAGIC0 :: MAGIC1 :: v :: tail ++ q) = takeBuf (v :: tail ++ q) :=
  takeBuf_of_wrong_version (hlength.trans (List.prefix_append tail q).length_le) hv

/-- A TAKE that returns a frame returns it whatever follows, and keeps what follows. -/
theorem TakeRule.takeBuf_append_of_frame {p rest : Bytes} {o : Option Frame} {f : Frame} (q : Bytes)
    (h : TakeRule p o rest) (hf : o = some f) :
    takeBuf (p ++ q) = (some f, rest ++ q) := by
  induction h with
  | short | noMarker | shortHeader | shortFrame => cases hf
  | noise noise b _ rest _ hmarker hfirst _ ih => rw [takeBuf_noise_append_append q hmarker hfirst, ih hf]
  | wrongVersion v tail _ rest hlength hv _ ih => rw [takeBuf_of_wrong_version_append q hlength hv, ih hf]
  | complete ty s0 s1 s2 s3 l0 l1 c0 c1 payload rest hlength =>
    rw [← hf, ← takeBuf_frame_bytes ty s0 s1 s2 s3 l0 l1 c0 c1 (rest ++ q) hlength]
    simp only [List.cons_append, List.append_assoc]

/-- If no marker is split between `p` and `q`, the leftmost marker behind `p` is the leftmost in `q`. -/
theorem length_le_of_markerAt_append {p q : Bytes} (hnone : ∀ k, ¬ MarkerAt p k)
    (hsplit : ¬ (p.getLast? = some MAGIC0 ∧ q.head? = some MAGIC1)) {k : Nat} (h : MarkerAt (p ++ q) k) :
    p.length ≤ k := by
  by_contra hk
  obtain hinside | hlast : k + 1 < p.length ∨ k + 1 = p.length := by omega
  · exact hnone k ((markerAt_append_left q hinside).mp h)
  · obtain ⟨h0, h1⟩ := h
    refine hsplit ⟨?_, ?_⟩
    · rwa [List.getElem?_append_left (by omega), show k = p.length - 1 by omega, ← List.getLast?_eq_getElem?] at h0
    · rwa [hlast, List.getElem?_append_right (Nat.le_refl _), Nat.sub_self, ← List.head?_eq_getElem?] at h1

/-- Step 2 on `p` and then a TAKE on `q` return what a TAKE on both returns, if no marker is split between them. -/
theorem takeBuf_append_of_no_marker {p q : Bytes} (hnone : ∀ k, ¬ MarkerAt p k)
    (hsplit : ¬ (p.getLast? = some MAGIC0 ∧ q.head? = some MAGIC1)) :
    takeBuf (p ++ q) = takeBuf q ∨ (takeBuf (p ++ q)).1 = none ∧ (takeBuf q).1 = none := by
  have hbehind {k : Nat} (h : MarkerAt (p ++ q) k) : p.length ≤ k := length_le_of_markerAt_append hnone hsplit h
  have hshift (k : Nat) : MarkerAt (p ++ q) (p.length + k) ↔ MarkerAt q k := markerAt_append_length_add p q k
  obtain hq | ⟨k, hk, hfirst⟩ := no_marker_or_leftmost q
  · have hboth : ∀ k, ¬ MarkerAt (p ++ q) k := by
      intro k h
      obtain ⟨j, rfl⟩ := Nat.exists_eq_add_of_le (hbehind h)
      exact hq j ((hshift j).mp h)
    exact .inr ⟨takeBuf_none_of_no_marker hboth, takeBuf_none_of_no_marker hq⟩
  · left
    rw [takeBuf_drop_of_leftmost hk hfirst, takeBuf_drop_of_leftmost ((hshift k).mpr hk), List.drop_length_add_append]
    intro j hj h
    obtain ⟨j, rfl⟩ := Nat.exists_eq_add_of_le (hbehind h)
    exact hfirst j (Nat.lt_of_add_lt_add_left hj) ((hshift j).mp h)

/-- After a NEED_MORE more bytes give what they would have given before it, unless step 2 has split a marker. -/
theorem TakeRule.takeBuf_append_of_needMore {p rest : Bytes} {o : Option Frame} (q : Bytes) (h : TakeRule p o rest)
    (hf : o = none)
    (hsplit : ¬ (rest = [] ∧ p.getLast? = some MAGIC0 ∧ q.head? = some MAGIC1)) :
    takeBuf (p ++ q) = takeBuf (rest ++ q) ∨ (takeBuf (p ++ q)).1 = none ∧ (takeBuf (rest ++ q)).1 = none := by
  induction h with
  | short | shortHeader | shortFrame => exact .inl rfl
  | noMarker p _ hnone => exact takeBuf_append_of_no_marker hnone fun hlast => hsplit ⟨rfl, hlast⟩
  | noise noise b _ rest _ hmarker hfirst _ ih =>
    rw [takeBuf_noise_append_append q hmarker hfirst]
    obtain ⟨tail, rfl⟩ := markerAt_zero_iff.mp hmarker
    exact ih hf (by simpa using hsplit)
  | wrongVersion v tail _ rest hlength hv _ ih =>
    rw [takeBuf_of_wrong_version_append q hlength hv]
    exact ih hf (by simpa using hsplit)
  | complete => cases hf

/-- The frames of a DRAIN are those of its first TAKE on. -/
theorem drained_frames_eq {b c : Bytes}
    (h : takeBuf b = takeBuf c ∨ (takeBuf b).1 = none ∧ (takeBuf c).1 = none) : (drained b).1 = (drained c).1 := by
  obtain heq | ⟨hb, hc⟩ := h
  · match hc : takeBuf c with
    | (none, rest) => rw [drained_of_needMore (heq.trans hc), drained_of_needMore hc]
    | (some f, rest) => rw [drained_of_frame (heq.trans hc), drained_of_frame hc]
  · rw [drained_of_needMore (Prod.ext hb rfl), drained_of_needMore (Prod.ext hc rfl)]

/-- A DRAIN between `p` and `q` changes no frame, unless its last TAKE splits a marker. -/
theorem drained_append {n : Nat} {p : Bytes} (q : Bytes) (hn : p.length / 12 < n) (h : ¬ drainLosesMarker n p q) :
    (drained (p ++ q)).1 = (drained p).1 ++ (drained ((drained p).2 ++ q)).1 := by
  induction n generalizing p with
  | zero => exact absurd hn (Nat.not_lt_zero _)
  | succ n ih =>
    rw [drainLosesMarker] at h
    match ht : takeBuf p with
    | (none, rest) =>
      rw [ht] at h
      rw [drained_of_needMore ht]
      exact drained_frames_eq ((takeRule_of_takeBuf ht).takeBuf_append_of_needMore q rfl h)
    | (some f, rest) =>
      rw [ht] at h
      rw [drained_of_frame ht, drained_of_frame ((takeRule_of_takeBuf ht).takeBuf_append_of_frame q rfl),
        ih (length_div_lt_of_frame ht hn) h]
      rfl

/-- After a DRAIN nothing is left to take (R128). -/
theorem drained_settled (b : Bytes) : (drained (drained b).2).1 = [] := by
  induction b using drain_induction with
  | needMore b rest h =>
    rw [drained_of_needMore h, drained_of_needMore (takeBuf_of_waitingShape ((takeRule_of_takeBuf h).waitingShape rfl))]
  | frame b f rest h ih =>
    rw [drained_of_frame h]
    exact ih

/-- Feeding byte by byte, with a DRAIN after each, gives the frames of feeding at once. -/
theorem drainChunks_bytewise {stream b : Bytes} (hb : (drained b).1 = []) (h : ¬ bytewiseLosesMarker b stream) :
    (drainChunks (stream.map fun x => [x]) b).1 = (drained (b ++ stream)).1 := by
  induction stream generalizing b with
  | nil => rw [List.append_nil, hb, List.map_nil, drainChunks]
  | cons x stream ih =>
    obtain ⟨hnow, hlater⟩ := not_or.mp h
    have henough : (b ++ [x]).length / 12 < b.length + 2 := by
      rw [List.length_append, List.length_singleton]
      omega
    rw [drainBuf_eq_drained henough] at hlater
    rw [List.append_cons, drained_append stream henough hnow, List.map_cons, drainChunks,
      ih (drained_settled _) hlater]

end Sys2Proof.Machine

section

open Sys2Proof Sys2Proof.Machine

/-- Settles O55: both hosts' frames are functions of the buffer, and the two functions agree byte by byte. -/
theorem onlyASplitMarkerMakesChunkingDiffer : Obligations.OnlyASplitMarkerMakesChunkingDiffer := by
  intro stream s hempty hcap hkept
  have hroom : s.rxBuf.length + stream.length ≤ BUF_CAP := by rwa [hempty, List.length_nil, Nat.zero_add]
  have hbytes : (stream.map fun x => [x]).flatten = stream := by simp [← List.flatMap_def]
  obtain ⟨t, hrun, _, hframes⟩ := recv_of_room hroom
  obtain ⟨u, hrun', _, hframes'⟩ :=
    recvChunks_of_room (chunks := stream.map fun x => [x]) (s := s) (by rwa [hbytes])
  refine ⟨t, u, hrun, hrun', ?_⟩
  rw [hframes, hframes', hempty, drainChunks_bytewise rfl hkept]

end

/-! ## False markers (R131, R132)

A marker with a wrong version costs TAKE its two bytes and nothing else, so noise with such markers does not hide the
frame behind it, and a buffer with no other markers has no frame. -/

namespace Sys2Proof.Machine

/-- Steps 3 and 5 together (R116, R120): up to the end of the leftmost marker, if a wrong version follows it. -/
theorem takeBuf_drop_of_false_marker {b : Bytes} {k : Nat} (hk : MarkerAt b k) (hfirst : ∀ j, j < k → ¬ MarkerAt b j)
    (hlength : k + 10 ≤ b.length) (hversion : b[k + 2]? ≠ some VERSION) : takeBuf b = takeBuf (b.drop (k + 2)) := by
  obtain ⟨tail, htail⟩ := markerAt_zero_iff.mp ((markerAt_drop b k 0).mpr hk)
  have hrest : b.drop (k + 2) = tail := by
    rw [← List.drop_drop, htail]
    rfl
  have htail_length : tail.length + 2 = b.length - k := by rw [← List.length_drop, htail]; rfl
  rw [takeBuf_drop_of_leftmost hk hfirst, htail, hrest]
  match tail with
  | [] => exact absurd htail_length (by simp; omega)
  | v :: tail =>
    refine takeBuf_of_wrong_version (by rw [List.length_cons] at htail_length; omega) fun hv => hversion ?_
    rw [← hv, ← List.head?_drop, hrest]
    rfl

/-- TAKE goes past noise whose every marker is followed by a wrong version, and arrives at the marker behind it. -/
theorem takeBuf_skips_false_markers {noise b : Bytes} (hb : MarkerAt b 0) (hlength : 10 ≤ b.length)
    (hfalse : ∀ k, k < noise.length → MarkerAt (noise ++ b) k → (noise ++ b)[k + 2]? ≠ some VERSION) :
    takeBuf (noise ++ b) = takeBuf b := by
  induction hn : noise.length using Nat.strong_induction_on generalizing noise with
  | _ n ih =>
    subst hn
    have hbehind : MarkerAt (noise ++ b) noise.length := (markerAt_append_length_add noise b 0).mpr hb
    obtain hnone | ⟨k, hk, hfirst⟩ := no_marker_or_leftmost (noise ++ b)
    · exact absurd hbehind (hnone _)
    by_cases hlt : k < noise.length
    · have hinside : k + 2 ≤ noise.length := markerAt_two_apart hk hbehind hlt
      have hdrop : (noise ++ b).drop (k + 2) = noise.drop (k + 2) ++ b := List.drop_append_of_le_length hinside
      have hskip := takeBuf_drop_of_false_marker hk hfirst (by rw [List.length_append]; omega) (hfalse k hlt hk)
      rw [hskip, hdrop]
      refine ih _ (by rw [List.length_drop]; omega) (fun j hj h => ?_) rfl
      rw [List.length_drop] at hj
      rw [← hdrop, markerAt_drop] at h
      rw [← hdrop, List.getElem?_drop]
      exact hfalse (k + 2 + j) (by omega) h
    · exact takeBuf_noise_append hb fun j hj => hfirst j (by omega)

/-- A buffer whose every marker is followed by a wrong version has no frame. -/
theorem takeBuf_none_of_false_markers {b : Bytes} (h : ∀ k, MarkerAt b k → b[k + 2]? ≠ some VERSION) :
    (takeBuf b).1 = none := by
  match ht : takeBuf b with
  | (none, _) => rfl
  | (some f, rest) =>
    obtain ⟨crc, gone, _, hwire, _⟩ := (takeRule_of_takeBuf ht).was_on_the_wire rfl
    rw [List.append_assoc] at hwire
    have hmarker : MarkerAt b (gone.length + 0) := hwire ▸ (markerAt_append_length_add gone _ 0).mpr ⟨rfl, rfl⟩
    refine absurd ?_ (h _ hmarker)
    rw [hwire, List.getElem?_append_right (by omega), show gone.length + 0 + 2 - gone.length = 2 by omega]
    rfl

theorem drained_of_last_frame {b : Bytes} {f : Frame} (h : takeBuf b = (some f, [])) : drained b = ([f], []) := by
  rw [drained_of_frame h]
  rfl

/-- The payload of every frame of a DRAIN was in the buffer, beside the frame's 12 other bytes (R61). -/
theorem payload_length_of_mem_drained {b : Bytes} {g : Frame} (h : g ∈ (drained b).1) :
    g.payload.length + 12 ≤ b.length := by
  induction b using drain_induction with
  | needMore b rest ht => simp [drained_of_needMore ht] at h
  | frame b f rest ht ih =>
    obtain ⟨crc, gone, _, hwire, _⟩ := (takeRule_of_takeBuf ht).was_on_the_wire rfl
    have hlength := congrArg List.length hwire
    rw [List.length_append, List.length_append, anyFrame_length] at hlength
    rw [drained_of_frame ht] at h
    obtain rfl | hlater := List.mem_cons.mp h
    · omega
    · have := ih hlater
      omega

end Sys2Proof.Machine

/-! ## One flipped bit (R133) -/

namespace Sys2Proof.Machine

@[simp] theorem flipBit_length (b : Bytes) (i j : Nat) : (flipBit b i j).length = b.length :=
  List.length_modify ..

theorem flipBit_append_left {a : Bytes} (b : Bytes) {i : Nat} (j : Nat) (h : i < a.length) :
    flipBit (a ++ b) i j = flipBit a i j ++ b := by
  rw [← List.take_append_drop a.length (flipBit (a ++ b) i j), flipBit, List.take_modify,
    List.drop_modify_of_lt _ _ _ _ h, List.take_left, List.drop_left, ← flipBit]

theorem flipBit_append_right (a b : Bytes) (i j : Nat) : flipBit (a ++ b) (a.length + i) j = a ++ flipBit b i j :=
  List.modifyTailIdx_add _ i a b

theorem flipBit_ne {b : Bytes} {i j : Nat} (hi : i < b.length) (hj : j < 8) : flipBit b i j ≠ b := by
  intro h
  have hbyte : (flipBit b i j)[i]? = b[i]? := congrArg (·[i]?) h
  rw [flipBit, List.getElem?_modify_eq, List.getElem?_eq_getElem hi] at hbyte
  exact flipped_byte_ne b[i] hj (Option.some.inj hbyte)

theorem getElem?_flipBit_of_ne (b : Bytes) {i k : Nat} (j : Nat) (h : i ≠ k) : (flipBit b i j)[k]? = b[k]? :=
  List.getElem?_modify_ne _ b h

theorem byteAt_flipBit_of_ne (b : Bytes) {i k : Nat} (j : Nat) (h : i ≠ k) : byteAt (flipBit b i j) k = byteAt b k := by
  rw [byteAt, List.getD_eq_getElem?_getD, getElem?_flipBit_of_ne b j h, ← List.getD_eq_getElem?_getD, ← byteAt]

theorem eq_bytes16le_of_length {b : Bytes} (h : b.length = 2) : ∃ v, b = bytes16le v :=
  match b, h with
  | [x, y], _ => ⟨le16 x y, (bytes16le_le16 x y).symm⟩

/-- A flipped two-byte field is another value of that field. -/
theorem flipBit_bytes16le (v : U16) {i j : Nat} (hi : i < 2) (hj : j < 8) :
    ∃ w, flipBit (bytes16le v) i j = bytes16le w ∧ w ≠ v := by
  obtain ⟨w, hw⟩ := eq_bytes16le_of_length (flipBit_length (bytes16le v) i j)
  refine ⟨w, hw, ?_⟩
  rintro rfl
  exact flipBit_ne hi hj hw

/-- With a bit of the magic flipped the marker at the front is gone. -/
theorem not_markerAt_zero_of_flipped_magic {ty : Byte} {seq : U32} {payload : Bytes} {i j : Nat} (hi : i < 2)
    (hj : j < 8) : ¬ MarkerAt (flipBit (encodeFrame ty seq payload) i j) 0 := by
  rintro ⟨h0, h1⟩
  match i with
  | 0 => exact flipped_byte_ne MAGIC0 hj (Option.some.inj h0)
  | 1 => exact flipped_byte_ne MAGIC1 hj (Option.some.inj h1)

/-- Behind the marker of an encoded frame, one flipped bit leaves a CRC field that is not the CRC of the bytes before it
(R96): either the CRC has changed or the field has. -/
theorem flipBit_encodeFrame_crc_ne (ty : Byte) (seq : U32) (payload : Bytes) {i j : Nat} (hj : j < 8)
    (hi : i < payload.length + 10) :
    ∃ body crc, flipBit (encodeFrame ty seq payload) (2 + i) j = [MAGIC0, MAGIC1] ++ body ++ bytes16le crc ∧
      body.length = payload.length + 8 ∧ crc ≠ crc16 body := by
  have hbody := frameBody_length ty seq payload
  rw [encodeFrame, List.append_assoc]
  have hmarker := flipBit_append_right [MAGIC0, MAGIC1]
    (frameBody ty seq payload ++ bytes16le (frameCrc ty seq payload)) i j
  rw [show 2 + i = [MAGIC0, MAGIC1].length + i from rfl, hmarker]
  by_cases hin : i < (frameBody ty seq payload).length
  · refine ⟨flipBit (frameBody ty seq payload) i j, frameCrc ty seq payload, ?_, by rw [flipBit_length, hbody], ?_⟩
    · rw [flipBit_append_left _ j hin, List.append_assoc]
    · exact (singleBitErrorChangesTheCrc _ i j hin hj).symm
  · obtain ⟨k, rfl⟩ := Nat.exists_eq_add_of_le (Nat.not_lt.mp hin)
    obtain ⟨w, hw, hne⟩ := flipBit_bytes16le (frameCrc ty seq payload) (i := k) (by omega) hj
    refine ⟨frameBody ty seq payload, w, ?_, hbody, hne⟩
    rw [flipBit_append_right, hw, List.append_assoc]

/-- What step 7 compares (R123). -/
theorem extractFrame_crcValid {body : Bytes} {n : Nat} (crc : U16) (h : body.length = n + 8) :
    (extractFrame ([MAGIC0, MAGIC1] ++ body ++ bytes16le crc) n).crcValid = crcMatches crc (crc16 body) := by
  have hfront : ([MAGIC0, MAGIC1] ++ body).length = HDR + n := by
    simp [h]
    omega
  have hslice : slice ([MAGIC0, MAGIC1] ++ body ++ bytes16le crc) 2 (HDR + n) = body := by
    have := slice_append_append [MAGIC0, MAGIC1] body (bytes16le crc)
    rwa [← List.length_append, hfront] at this
  have hfield (i : Nat) : byteAt ([MAGIC0, MAGIC1] ++ body ++ bytes16le crc) (HDR + n + i) = byteAt (bytes16le crc) i :=
    hfront ▸ byteAt_append_length_add _ _ i
  rw [extractFrame, hslice]
  exact congrArg (crcMatches · _) ((congrArg₂ le16 (hfield 0) (hfield 1)).trans (le16_bytes16le crc))

/-- Step 7 on any buffer that starts with a complete frame (R122, R124). -/
theorem takeBuf_of_complete {b : Bytes} (hb : MarkerAt b 0) (hversion : byteAt b 2 = VERSION)
    (hlong : HDR + declaredLength b + CRC_LEN ≤ b.length) :
    takeBuf b = (some (extractFrame b (declaredLength b)), b.drop (HDR + declaredLength b + CRC_LEN)) := by
  obtain ⟨tail, rfl⟩ := markerAt_zero_iff.mp hb
  exact takeBuf_of_frame ((takePass_marker tail).trans (syncPass_of_complete hversion hlong))

/-- With a bit flipped that is in no marker, version or length byte, TAKE returns the frame as received and reports the
error. -/
theorem takeBuf_flipBit_encodeFrame (ty : Byte) (seq : U32) {payload : Bytes} {i j : Nat} (hp : payload.length ≤ 65535)
    (hj : j < 8) (hi : 3 ≤ i ∧ i ≤ 7 ∨ 10 ≤ i ∧ i < 12 + payload.length) :
    ∃ f, takeBuf (flipBit (encodeFrame ty seq payload) i j) = (some f, []) ∧
      f = extractFrame (flipBit (encodeFrame ty seq payload) i j) payload.length ∧ f.crcValid = false := by
  have hmarker : MarkerAt (flipBit (encodeFrame ty seq payload) i j) 0 :=
    ⟨getElem?_flipBit_of_ne _ j (by omega), getElem?_flipBit_of_ne _ j (by omega)⟩
  have hversion : byteAt (flipBit (encodeFrame ty seq payload) i j) 2 = VERSION :=
    byteAt_flipBit_of_ne _ j (by omega)
  have hdeclared : declaredLength (flipBit (encodeFrame ty seq payload) i j) = payload.length := by
    rw [declaredLength, byteAt_flipBit_of_ne _ j (by omega), byteAt_flipBit_of_ne _ j (by omega), ← declaredLength,
      encodeFrame_eq_anyFrame, declaredLength_anyFrame ty seq _ hp]
  have hlength : HDR + payload.length + CRC_LEN = (flipBit (encodeFrame ty seq payload) i j).length := by
    rw [flipBit_length, encodeFrame_length, HDR_eq, CRC_LEN_eq]
    omega
  have htake := takeBuf_of_complete hmarker hversion (by rw [hdeclared, hlength])
  rw [hdeclared, hlength, List.drop_length] at htake
  refine ⟨_, htake, rfl, ?_⟩
  obtain ⟨k, rfl⟩ : ∃ k, i = 2 + k := Nat.exists_eq_add_of_le (by omega)
  obtain ⟨body, crc, hflip, hbody, hne⟩ := flipBit_encodeFrame_crc_ne ty seq payload (i := k) hj (by omega)
  rw [hflip, extractFrame_crcValid crc hbody]
  exact decide_eq_false hne

/-- One flipped bit of the length makes the header another frame's header. -/
theorem flipBit_frameHeader_length (ty : Byte) (seq : U32) (m : Nat) {i j : Nat} (hi : i = 8 ∨ i = 9) (hj : j < 8) :
    ∃ n, n ≤ 65535 ∧ n ≠ m ∧ flipBit (frameHeader ty seq m) i j = frameHeader ty seq n := by
  obtain ⟨k, hk, rfl⟩ : ∃ k, k < 2 ∧ i = 8 + k := ⟨i - 8, by omega, by omega⟩
  obtain ⟨w, hw, hne⟩ := flipBit_bytes16le (BitVec.ofNat 16 m) hk hj
  refine ⟨w.toNat, Nat.le_of_lt_succ w.isLt, ?_, ?_⟩
  · rintro rfl
    rw [BitVec.ofNat_toNat, BitVec.setWidth_eq] at hne
    exact hne rfl
  · have hflip :=
      flipBit_append_right ([MAGIC0, MAGIC1, VERSION, ty] ++ bytes32le seq) (bytes16le (BitVec.ofNat 16 m)) k j
    rw [hw] at hflip
    rw [frameHeader, frameHeader, BitVec.ofNat_toNat, BitVec.setWidth_eq]
    exact hflip

theorem declaredLength_frameHeader_append (ty : Byte) (seq : U32) {n : Nat} (tail : Bytes) (hn : n ≤ 65535) :
    declaredLength (frameHeader ty seq n ++ tail) = n := by
  rw [declaredLength_append tail (frameHeader_length ..).ge, declaredLength_frameHeader ty seq hn]

/-- Step 7 behind any header, with as many bytes as it declares (R122 to R124). -/
theorem takeBuf_frameHeader_append (ty : Byte) (seq : U32) {n : Nat} {tail : Bytes} (hn : n ≤ 65535)
    (hlong : n + 2 ≤ tail.length) :
    takeBuf (frameHeader ty seq n ++ tail) =
      (some
        { ty := ty, seq := seq, payload := tail.take n
          crcValid := crcMatches
            (le16 (byteAt (frameHeader ty seq n ++ tail) (10 + n)) (byteAt (frameHeader ty seq n ++ tail) (11 + n)))
            (frameCrc ty seq (tail.take n)) },
        (frameHeader ty seq n ++ tail).drop (12 + n)) := by
  obtain ⟨payload, c0, c1, rest, rfl, rfl⟩ := exists_payload_crc hlong
  have hwire : frameHeader ty seq payload.length ++ (payload ++ [c0, c1] ++ rest) =
      anyFrame ty seq payload (le16 c0 c1) ++ rest := by simp [anyFrame_eq]
  have hbyte (i : Nat) : byteAt (frameHeader ty seq payload.length ++ (payload ++ [c0, c1] ++ rest))
      (10 + payload.length + i) = byteAt (c0 :: c1 :: rest) i := by
    have h := byteAt_append_length_add (frameHeader ty seq payload.length ++ payload) (c0 :: c1 :: rest) i
    rw [List.length_append, frameHeader_length] at h
    simpa only [List.append_assoc, List.cons_append, List.nil_append] using h
  have hpayload : (payload ++ [c0, c1] ++ rest).take payload.length = payload := by
    rw [List.append_assoc, List.take_left]
  have hrest : (anyFrame ty seq payload (le16 c0 c1) ++ rest).drop (12 + payload.length) = rest :=
    List.drop_left' ((anyFrame_length ..).trans (Nat.add_comm ..))
  rw [hpayload, show 11 + payload.length = 10 + payload.length + 1 by omega, ← Nat.add_zero (10 + payload.length),
    hbyte 0, Nat.add_zero, hbyte 1, hwire, hrest, takeBuf_anyFrame_append ty seq _ rest hn]
  rfl

/-- Step 6 behind any header, with fewer bytes than it declares (R121). -/
theorem takeBuf_frameHeader_append_short (ty : Byte) (seq : U32) {n : Nat} {tail : Bytes} (hn : n ≤ 65535)
    (hshort : tail.length < n + 2) : takeBuf (frameHeader ty seq n ++ tail) = (none, frameHeader ty seq n ++ tail) := by
  refine takeBuf_of_incomplete ⟨rfl, rfl⟩ fun _ => ⟨rfl, ?_⟩
  rw [declaredLength_frameHeader_append ty seq tail hn, List.length_append, frameHeader_length, HDR_eq, CRC_LEN_eq]
  omega

/-- A frame fits into the buffer, so a host that feeds one with a flipped bit gets what is drained from it. -/
theorem recv_flipBit_encodeFrame (ty : Byte) (seq : U32) {payload : Bytes} (i j : Nat) {s : State}
    (hp : payload.length ≤ 65535) (hempty : s.rxBuf = []) :
    ∃ t, recv (flipBit (encodeFrame ty seq payload) i j) s = .next (t, []) ∧
      t.rxBuf = (drained (flipBit (encodeFrame ty seq payload) i j)).2 ∧
      framesIn t.responses = framesIn s.responses ++ (drained (flipBit (encodeFrame ty seq payload) i j)).1 := by
  have hcap := MAX_FRAME_le_BUF_CAP
  have h := recv_of_room (bs := flipBit (encodeFrame ty seq payload) i j) (s := s)
    (by rw [hempty, flipBit_length, encodeFrame_length, List.length_nil]; omega)
  rwa [hempty, List.nil_append] at h

end Sys2Proof.Machine

section

open Sys2Proof Sys2Proof.Machine

/-- Settles O57: TAKE skips the noise, and then returns the frame. -/
theorem falseMarkersInNoiseAreSkipped : Obligations.FalseMarkersInNoiseAreSkipped := by
  intro noise ty seq payload crc s hp hempty hcap hfalse
  obtain ⟨t, hrun, hbuf, hframes⟩ := recv_of_room (bs := noise ++ anyFrame ty seq payload crc) (s := s)
    (by rwa [hempty, List.length_nil, Nat.zero_add])
  have htake := takeBuf_anyFrame_append ty seq crc [] hp
  rw [List.append_nil] at htake
  have hskip : takeBuf (noise ++ anyFrame ty seq payload crc) = takeBuf (anyFrame ty seq payload crc) :=
    takeBuf_skips_false_markers ⟨rfl, rfl⟩ (by rw [anyFrame_length]; omega) hfalse
  rw [hempty, List.nil_append, drained_of_last_frame (hskip.trans htake)] at hbuf hframes
  exact ⟨t, hrun, hbuf, hframes⟩

/-- Settles O58: the frame is complete, and its CRC field is not the CRC of its bytes. -/
theorem singleBitErrorInTheBodyIsReported : Obligations.SingleBitErrorInTheBodyIsReported := by
  intro ty seq payload i j s hp hempty hj hi f
  obtain ⟨t, hrun, hbuf, hframes⟩ := recv_flipBit_encodeFrame ty seq i j hp hempty
  obtain ⟨g, htake, hg, hcrc⟩ := takeBuf_flipBit_encodeFrame ty seq hp hj hi
  rw [drained_of_last_frame htake] at hbuf hframes
  refine ⟨t, hrun, hbuf, hframes.trans ?_⟩
  rw [hg] at hcrc ⊢
  rw [← hcrc]
  rfl

/-- Settles O59: the flipped byte is no magic byte, or no version, and the frames drained later are shorter. -/
theorem singleBitErrorInMagicOrVersion : Obligations.SingleBitErrorInMagicOrVersion := by
  intro ty seq payload i j s hp hempty hj f
  obtain ⟨t, hrun, hbuf, hframes⟩ := recv_flipBit_encodeFrame ty seq i j hp hempty
  have hlength : f.length = payload.length + 12 := (flipBit_length ..).trans (encodeFrame_length ..)
  refine ⟨fun hi => ⟨?_, ?_, fun hnone => ?_⟩, ?_⟩
  · exact not_markerAt_zero_of_flipped_magic hi hj
  · rintro ⟨_, hversion⟩
    rw [getElem?_flipBit_of_ne _ j (by omega)] at hversion
    exact absurd hversion (show some VERSION ≠ some MAGIC1 by decide)
  · have hdrained : drained f = ([], []) := drained_of_needMore (takeBuf_of_no_marker (by omega) hnone)
    rw [hdrained] at hbuf hframes
    exact ⟨t, hrun, hbuf, hframes.trans (List.append_nil _)⟩
  · rintro rfl
    have hmarker : MarkerAt f 0 := ⟨rfl, rfl⟩
    have hversion : f[2]? ≠ some VERSION := fun h => flipped_byte_ne VERSION hj (Option.some.inj h)
    refine ⟨t, (drained f).1, hrun, hframes, fun g hg => ?_, fun hfalse => ?_⟩
    · have hskip : takeBuf f = takeBuf (f.drop 2) :=
        takeBuf_drop_of_false_marker hmarker (fun _ h => absurd h (Nat.not_lt_zero _)) (by omega) hversion
      rw [drained_frames_eq (.inl hskip)] at hg
      have hfit := payload_length_of_mem_drained hg
      rw [List.length_drop] at hfit
      omega
    · have hnone : (takeBuf f).1 = none := takeBuf_none_of_false_markers fun k hk => by
        match k with
        | 0 => exact hversion
        | 1 => exact absurd hk (not_markerAt_succ hmarker)
        | k + 2 => exact hfalse (k + 2) (Nat.le_add_left 2 k) hk
      rw [drained_of_needMore (Prod.ext hnone rfl)]

/-- Settles O60: the header declares another length, for which the bytes behind it are too few or enough. -/
theorem singleBitErrorInTheLength : Obligations.SingleBitErrorInTheLength := by
  intro ty seq payload i j s hp hj hi hbuf n
  obtain ⟨m, hm, hne, hflip⟩ := flipBit_frameHeader_length ty seq payload.length hi hj
  have hwire : s.rxBuf = frameHeader ty seq m ++ (payload ++ bytes16le (frameCrc ty seq payload)) := by
    rw [hbuf, encodeFrame_eq, List.append_assoc, flipBit_append_left _ j (by rw [frameHeader_length]; omega), hflip]
  have htail : (payload ++ bytes16le (frameCrc ty seq payload)).length = payload.length + 2 := List.length_append
  have hn : n = m := (congrArg declaredLength hwire).trans (declaredLength_frameHeader_append ty seq _ hm)
  rw [hn]
  refine ⟨hne, fun hlarger => ?_, fun hsmaller => ?_⟩
  · have hwait :=
      takeBuf_frameHeader_append_short ty seq hm (show _ < m + 2 from htail ▸ Nat.add_lt_add_right hlarger 2)
    rw [← hwire] at hwait
    exact exec_take_of_takeBuf hwait
  · have htake :=
      takeBuf_frameHeader_append ty seq hm (show m + 2 ≤ _ from htail ▸ Nat.add_le_add_right hsmaller.le 2)
    rw [List.take_append_of_le_length hsmaller.le, ← hwire] at htake
    exact exec_take_of_takeBuf htake

end

/-! ## The record of a host fault

The record is an ILLEGAL among the responses (R141), and no step takes a response back, so a recorded fault stays. -/

namespace Sys2Proof.Machine

@[simp] theorem State.hostFaulted_iff (s : State) : s.hostFaulted = true ↔ .illegal ∈ s.responses :=
  List.contains_iff_mem

/-- A run with a recorded fault is never over (R141). -/
theorem State.not_final_of_hostFaulted {s : State} (h : s.hostFaulted = true) : ¬ s.Final :=
  fun ⟨_, hclean⟩ => Bool.false_ne_true (hclean.symm.trans h)

theorem State.hostFaulted_respond_illegal (s : State) : (s.respond .illegal).hostFaulted = true := by
  simp

/-- Responses are only ever added: an idle step and reset leave them (R162, R170), and a command adds its own (R40). -/
theorem responses_prefix_of_step {s t : State} (h : step s = .next t) : s.responses <+: t.responses := by
  obtain ⟨_, rfl⟩ | ⟨_, _, _, rfl⟩ | ⟨_, _, i, _, _, _, rfl⟩ := step_next_cases h
  · exact List.prefix_rfl
  · exact List.prefix_rfl
  · exact List.prefix_append s.responses [responseOf i s.rxBuf]

theorem hostFaulted_of_step {s t : State} (hs : s.hostFaulted = true) (h : step s = .next t) :
    t.hostFaulted = true :=
  t.hostFaulted_iff.mpr ((responses_prefix_of_step h).subset (s.hostFaulted_iff.mp hs))

end Sys2Proof.Machine

section

open Sys2Proof Sys2Proof.Machine

/-- Settles O21: the response, evaluated. -/
theorem nopResult : Obligations.NopResult :=
  fun _ => rfl

/-- Settles O22: the arms of the seven opcodes. -/
theorem reservedOpcodesRespondIllegal : Obligations.ReservedOpcodesRespondIllegal := by
  intro i s hi
  fin_cases hi <;> rfl

/-- Settles O23: the response ILLEGAL is the record, and responses are only ever added. -/
theorem hostFaultStaysOnRecord : Obligations.HostFaultStaysOnRecord := by
  refine ⟨fun i s t hi h => ?_, fun s t hs h => ?_⟩
  · obtain rfl := Host.Outcome.next.inj ((reservedOpcodesRespondIllegal i s hi).symm.trans h)
    have hrecord := s.hostFaulted_respond_illegal
    exact ⟨hrecord, State.not_final_of_hostFaulted hrecord⟩
  · have hrecord := hostFaulted_of_step hs h
    exact ⟨hrecord, State.not_final_of_hostFaulted hrecord⟩

end

/-! ## Delivering a byte under back-pressure (R178)

A byte that meets a full buffer is rejected once: TAKE makes room (R129), and only at the front of the buffer. -/

namespace Sys2Proof.Machine

theorem deliver_of_room {s : State} (b : Byte) (h : s.rxBuf.length < BUF_CAP) :
    deliver b s = .next ((s.setRxBuf (s.rxBuf ++ [b])).respond .ok) := by
  have haccept : exec (.feed b) s = .next ((s.setRxBuf (s.rxBuf ++ [b])).respond .ok) := execFeed_of_room b h
  simp [deliver, haccept]

/-- A host that is rejected sends its TAKE and the byte again. -/
theorem deliver_of_full {s : State} (b : Byte) (h : BUF_CAP ≤ s.rxBuf.length) :
    deliver b s = runInstrs [.take, .feed b] (s.respond .rejected) := by
  have hreject : exec (.feed b) s = .next (s.respond .rejected) := execFeed_of_full b h
  simp [deliver, hreject]

/-- FEED after a TAKE that leaves room. -/
theorem runInstrs_take_feed {s : State} (b : Byte) (h : (takeBuf s.rxBuf).2.length < BUF_CAP) :
    runInstrs [.take, .feed b] s =
      .next (((afterCommand .take s).setRxBuf ((takeBuf s.rxBuf).2 ++ [b])).respond .ok) := by
  have haccept : exec (.feed b) (afterCommand .take s) =
      .next (((afterCommand .take s).setRxBuf ((takeBuf s.rxBuf).2 ++ [b])).respond .ok) := execFeed_of_room b h
  rw [runInstrs_of_next _ (exec_of_wellFormed s rfl), runInstrs_of_next _ haccept, runInstrs]

end Sys2Proof.Machine

/-! ## Receiving byte by byte behind noise (R177)

Without a marker the first byte of every two waits (step 1) and the second empties the buffer (step 2). After an odd
number of such bytes the first byte of the next marker is a second one, and goes. -/

namespace Sys2Proof.Machine

/-- A byte for which there is room, and on which no frame comes out, is received, and the stream goes on. -/
theorem recvBytewise_cons_of_needMore {x : Byte} {s : State} {rest : Bytes} (stream : Bytes)
    (hroom : s.rxBuf.length + 1 ≤ BUF_CAP) (h : takeBuf (s.rxBuf ++ [x]) = (none, rest)) :
    ∃ t, recvBytewise (x :: stream) s = recvBytewise stream t ∧ t.rxBuf = rest ∧
      framesIn t.responses = framesIn s.responses := by
  obtain ⟨t, hrun, hbuf, hframes⟩ := recv_of_room (bs := [x]) hroom
  rw [drained_of_needMore h] at hbuf hframes
  refine ⟨t, ?_, hbuf, hframes.trans (List.append_nil _)⟩
  simp only [recvBytewise, List.map_cons, recvChunks, hrun, if_true]

/-- Into an empty buffer: the byte waits (step 1, R114). -/
theorem recvBytewise_cons_of_empty (x : Byte) (stream : Bytes) {s : State} (hempty : s.rxBuf = []) :
    ∃ t, recvBytewise (x :: stream) s = recvBytewise stream t ∧ t.rxBuf = [x] ∧
      framesIn t.responses = framesIn s.responses := by
  have hcap := MAX_FRAME_le_BUF_CAP
  apply recvBytewise_cons_of_needMore stream
  · rw [hempty, List.length_nil]
    omega
  · rw [hempty]
    exact takeBuf_of_length_lt_two (Nat.lt_succ_self 1)

/-- Behind one byte, without a marker: both go (step 2, R115). -/
theorem recvBytewise_cons_of_singleton {x y : Byte} (stream : Bytes) {s : State} (hbuf : s.rxBuf = [x])
    (hnone : ¬ MarkerAt [x, y] 0) :
    ∃ t, recvBytewise (y :: stream) s = recvBytewise stream t ∧ t.rxBuf = [] ∧
      framesIn t.responses = framesIn s.responses := by
  have hcap := MAX_FRAME_le_BUF_CAP
  apply recvBytewise_cons_of_needMore stream
  · rw [hbuf, List.length_singleton]
    omega
  · rw [hbuf]
    refine takeBuf_of_no_marker (Nat.le_refl 2) fun k hk => ?_
    have hzero : k = 0 := Nat.le_zero.mp (Nat.le_of_add_le_add_right (two_le_length_of_markerAt hk))
    exact hnone (hzero ▸ hk)

/-- An even number of bytes without a marker leaves no trace. -/
theorem recvBytewise_append_of_no_marker {noise : Bytes} (stream : Bytes) {s : State} (hempty : s.rxBuf = [])
    (heven : noise.length % 2 = 0) (hnone : ∀ k, ¬ MarkerAt noise k) :
    ∃ t, recvBytewise (noise ++ stream) s = recvBytewise stream t ∧ t.rxBuf = [] ∧
      framesIn t.responses = framesIn s.responses := by
  induction noise using List.twoStepInduction generalizing s with
  | nil => exact ⟨s, rfl, hempty, rfl⟩
  | singleton x => exact absurd heven Nat.one_ne_zero
  | cons_cons x y noise ih _ =>
    obtain ⟨t, hx, hwaits, hframes⟩ := recvBytewise_cons_of_empty x (y :: noise ++ stream) hempty
    obtain ⟨u, hy, hgone, hframes'⟩ := recvBytewise_cons_of_singleton (noise ++ stream) hwaits (hnone 0)
    obtain ⟨v, hrest, hend, hframes''⟩ :=
      ih hgone ((Nat.add_mod_right _ 2).symm.trans heven) fun k => hnone (k + 2)
    exact ⟨v, hx.trans (hy.trans hrest), hend, hframes''.trans (hframes'.trans hframes)⟩

/-- The first byte of a marker completes none. -/
theorem no_marker_append_magic0 {noise : Bytes} (hnone : ∀ k, ¬ MarkerAt noise k) :
    ∀ k, ¬ MarkerAt (noise ++ [MAGIC0]) k := by
  intro k hk
  have hbehind : noise.length ≤ k :=
    length_le_of_markerAt_append hnone (fun ⟨_, hhead⟩ => MAGIC0_ne_MAGIC1 (Option.some.inj hhead)) hk
  obtain ⟨j, rfl⟩ := Nat.exists_eq_add_of_le hbehind
  exact not_markerAt_singleton MAGIC0 j ((markerAt_append_length_add noise [MAGIC0] j).mp hk)

end Sys2Proof.Machine

section

open Sys2Proof Sys2Proof.Machine

/-- Settles O51: with room at once, and on a full buffer because TAKE shortens it. -/
theorem rejectedByteIsDeliveredAfterTake : Obligations.RejectedByteIsDeliveredAfterTake := by
  intro b s hcap
  obtain hroom | hfull := Nat.lt_or_eq_of_le hcap
  · exact ⟨_, s.rxBuf, deliver_of_room b hroom, State.lastResponse_respond _ _, rfl, List.suffix_rfl, rfl⟩
  · obtain ⟨t, ht, hshorter⟩ := takeOnAFullBufferMakesRoom (s.respond .rejected) hfull
    obtain ⟨_, rfl⟩ := exec_eq_next.mp ht
    have hdeliver := (deliver_of_full b hfull.ge).trans (runInstrs_take_feed b (hshorter.trans_eq hfull))
    exact ⟨_, (takeBuf s.rxBuf).2, hdeliver, State.lastResponse_respond _ _, rfl, takeBuf_suffix s.rxBuf, rfl⟩

/-- Settles O56: noise and 55 are an even number of bytes without a marker, and AA alone waits. -/
theorem oddNoiseLosesTheMarkerBytewise : Obligations.OddNoiseLosesTheMarkerBytewise := by
  intro noise s hempty hodd hnone
  have heven : (noise ++ [MAGIC0]).length % 2 = 0 := by
    rw [List.length_append, List.length_singleton]
    omega
  obtain ⟨t, hnoise, hgone, hframes⟩ :=
    recvBytewise_append_of_no_marker [MAGIC1] hempty heven (no_marker_append_magic0 hnone)
  obtain ⟨u, hlast, hbuf, hframes'⟩ := recvBytewise_cons_of_empty MAGIC1 [] hgone
  rw [List.append_assoc] at hnoise
  exact ⟨u, hnoise.trans hlast, hbuf, hframes'.trans hframes⟩

/-- Settles O9: the step that a reset input takes, evaluated. -/
theorem resetInputResetsTheBlock : Obligations.ResetInputResetsTheBlock :=
  fun _ _ _ h => step_of_reset_input h

end
